-- ==== Sys2Proof/Word.lean ====
section
/-! DEFINITION. The words of the block's ports (10_state.md R20, 30_encoding.md R37, R44). -/

namespace Sys2Proof

/-- One wire. -/
abbrev Bit := BitVec 1

/-- A byte of a bus transfer (`rx0`, `rx1`; 20_memory.md R25). -/
abbrev Byte := BitVec 8

/-- The 12-bit magnitude, and the UQ10.2 code `q` of a reading (30_encoding.md R38, 41_decode.md R53). -/
abbrev Mag := BitVec 12

/-- The input word `raw` (format W16, 30_encoding.md R37). -/
abbrev RawWord := BitVec 16

/-- The 17 bits `xfer_ok, rx0, rx1` of format BUSRES, `xfer_ok` at bit 16 (30_encoding.md R44). -/
abbrev BusBits := BitVec 17

end Sys2Proof
end

