-- ==== Sys2Proof/Config.lean ====
section
/-! DEFINITION. The block's parameters (00_scope.md R7): the fixed ones as numbers, the OPEN ones as
constants with no body, and the free values of undriven wires. -/

namespace Sys2Proof

/-- The type that stands for the OPEN parameter `XferError` (00_scope.md R7, decision D9) where a definition must name
one: an error known by its name alone, as in the line `READ ERR <name>` (30_encoding.md R45). DESIGN CHOICE, log 6. The
parameter itself is the type argument `ε` of the input words, the results, the wires, the state and the step
(`BusWord`, `ReadResult`, `WrapperOut`, `StateOf`, `stepOf`): any type whatever. -/
structure XferError where
  name : String
deriving DecidableEq, Repr, Inhabited

namespace Config

/-- `W_RAW` (R7). -/
def wRaw : Nat := 16

/-- `W_MAG` (R7). -/
def wMag : Nat := 12

/-- `MAG_LO` (R7): the magnitude's low bit. -/
def magLo : Nat := 3

/-- `MAG_HI` (R7): the magnitude's high bit. -/
def magHi : Nat := 14

/-- `FAULT_BIT` (R7). -/
def faultBit : Nat := 2

/-- `SCALE` (R7): degrees Celsius per magnitude LSB, exactly 1/4. -/
def scale : Rat := 1 / 4

/-- `W_TEMP` (R7). -/
def wTemp : Nat := 12

/-- `N_XFER_BYTES` (R7). -/
def nXferBytes : Nat := 2

/-- Bits of a BUSRES word (30_encoding.md R44): `xfer_ok` above the transfer's bytes. -/
def wBus : Nat := 17

/-- The OPEN parameter `TX_BYTES` (R7, 42_read_wrapper.md R64, D20): the bytes a transfer sends. Read by no rule; log 10. -/
opaque txBytes : List Byte

/-- The OPEN parameter `T_PD` (R7, 70_reset_and_hazards.md R84, D15): the settle time. Read by no rule; log 10. -/
opaque settleTime : Rat

/-- FREE VALUE (70_reset_and_hazards.md R82, D16, I10): what the undriven wires of `raw` carry at the moment that the
model's counter names. Log 4. -/
opaque undrivenRaw : Nat → RawWord

/-- FREE VALUE (42_read_wrapper.md R66, I6): what `err_out` carries while `xerr_out` is 0. Log 5. -/
opaque idleErrOut {ε : Type} [Inhabited ε] : Nat → ε

end Config
end Sys2Proof
end

