-- ==== Sys2Proof/Syntax.lean ====
section
/-! DEFINITION. The two input formats, the four operations, what the producer may present, and the lines of the
stimulus notation (30_encoding.md R35, R41, R44, R45). -/

namespace Sys2Proof

/-- A word of format BUSRES with its side value, over any type `ε` of transport error (30_encoding.md R44). -/
structure BusWord (ε : Type) where
  /-- `xfer_ok` (bit 16), `rx0` (bits 15 to 8), `rx1` (bits 7 to 0). -/
  bits    : BusBits
  /-- `xfer_err`: matters only when `xfer_ok` is 0. -/
  xferErr : ε
deriving DecidableEq, Repr

/-- An input word in one of the two formats (30_encoding.md R35). The format is given by the port that the word
arrives at, never by the word. -/
inductive InputWord (ε : Type) where
  /-- Format W16: a word on the block's `raw` port (R37). -/
  | w16 (raw : RawWord)
  /-- Format BUSRES: the result of one bus transfer, at the READ wrapper (R44). -/
  | busres (b : BusWord ε)
deriving DecidableEq, Repr

/-- The operations, one per row of the opcode table (30_encoding.md R41, R44). A constructor keeps every field of its
encoding, those that nothing reads as well (log 18), so that an instruction and its input word determine each other. -/
inductive Instr where
  /-- `DECODE_READING`: pattern `s mmmmmmmmmmmm 0 d t` (41_decode.md R48). `s`, `d`, `t` are read by nothing. -/
  | decodeReading (s : Bit) (m : Mag) (d t : Bit)
  /-- `DECODE_FAULT`: pattern `s mmmmmmmmmmmm 1 d t` (41_decode.md R49). All four fields are read by nothing. -/
  | decodeFault (s : Bit) (m : Mag) (d t : Bit)
  /-- `READ_XFER_ERR`: pattern `0 xxxxxxxxxxxxxxxx` (42_read_wrapper.md R60). The bits `x` are read by nothing. -/
  | readXferErr (x : BitVec 16) (e : XferError)
  /-- `READ_OK`: pattern `1 bbbbbbbbbbbbbbbb` (42_read_wrapper.md R61). The side value is read by nothing. -/
  | readOk (rx0 rx1 : Byte) (side : XferError)
deriving DecidableEq, Repr

/-- The `raw` port: its wires' values, and which of them the producer drives (70_reset_and_hazards.md R82, D16 "an
undriven `raw`, or an undriven bit of it"). -/
structure RawPort where
  value  : RawWord
  driven : RawWord
deriving DecidableEq, Repr

/-- What the outside presents next (00_scope.md R12). -/
inductive Stimulus (ε : Type) where
  /-- A whole word on `raw`, or a completed bus transfer: one evaluation (30_encoding.md R45). -/
  | apply (x : InputWord ε)
  /-- The producer leaves wires of `raw` undriven (70_reset_and_hazards.md R82, D16): no sample, so no evaluation
  is reported. -/
  | undrive (p : RawPort)
  /-- A READ whose transfer never completes (42_read_wrapper.md R65, I9). -/
  | transferHangs
  /-- A second caller's READ while a READ holds the bus (60_exceptions.md R78, I11). -/
  | secondCaller
deriving DecidableEq, Repr

/-- What an `EXPECT` line asserts of the last result (30_encoding.md R45). -/
inductive Expectation where
  /-- `EXPECT READING <q>`, `q` in quarter-degrees. -/
  | reading (q : Nat)
  /-- `EXPECT READING <t>`, `t` in degrees Celsius. -/
  | readingDegC (t : Rat)
  /-- `EXPECT FAULT`. -/
  | fault
  /-- `EXPECT TRANSPORT <name>`. -/
  | transport (e : XferError)
deriving DecidableEq, Repr

/-- A line of the stimulus notation (30_encoding.md R45), its numerals as numbers. -/
inductive Line where
  /-- `DECODE <w16>`. -/
  | decode (w : Nat)
  /-- `READ OK <b0> <b1>`. -/
  | readOk (b0 b1 : Nat)
  /-- `READ ERR <name>`. -/
  | readErr (e : XferError)
  /-- `EXPECT ...`. -/
  | expect (x : Expectation)
deriving DecidableEq, Repr

end Sys2Proof
end

