-- ==== Sys2Proof/Machine/Operands.lean ====
section
/-! DEFINITION. Fields of the input words, their assembly, and the value of a reading (30_encoding.md R37 to R40, R44;
20_memory.md R24, R25; 41_decode.md R53). -/

namespace Sys2Proof.Machine

/-! ### Format W16 -/

/-- `magnitude[11:0] = (raw >> 3) & 0xFFF` (30_encoding.md R38). -/
def magnitude (raw : RawWord) : Mag := ((raw >>> Config.magLo) &&& 0xFFF).setWidth 12

/-- `fbit = (raw >> 2) & 0x1` (30_encoding.md R39). -/
def faultBit (raw : RawWord) : Bit := ((raw >>> Config.faultBit) &&& 0x1).setWidth 1

/-- The dummy sign bit, bit 15 (30_encoding.md R37): no rule reads it (R40). -/
def dummySign (raw : RawWord) : Bit := raw.extractLsb' 15 1

/-- The device identification bit, bit 1 (30_encoding.md R37): no rule reads it (R40). -/
def deviceId (raw : RawWord) : Bit := raw.extractLsb' 1 1

/-- The tri-state bit, bit 0 (30_encoding.md R37): no rule reads it (R40). -/
def triState (raw : RawWord) : Bit := raw.extractLsb' 0 1

/-- The word with the given fields, in the order of the pattern `smmmmmmmmmmmmfdt` (30_encoding.md R37). -/
def packW16 (s : Bit) (m : Mag) (f d t : Bit) : RawWord := s ++ m ++ f ++ d ++ t

/-! ### Format BUSRES and the bus transfer -/

/-- `xfer_ok`, bit 16 (30_encoding.md R44). -/
def xferOk (b : BusBits) : Bit := b.extractLsb' 16 1

/-- `rx0`, bits 15 to 8: the first byte received (30_encoding.md R44). -/
def busRx0 (b : BusBits) : Byte := b.extractLsb' 8 8

/-- `rx1`, bits 7 to 0: the second byte received (30_encoding.md R44). -/
def busRx1 (b : BusBits) : Byte := b.extractLsb' 0 8

/-- The sixteen bits below `xfer_ok`, which `READ_XFER_ERR` does not read (30_encoding.md R44). -/
def busBytes (b : BusBits) : BitVec 16 := b.extractLsb' 0 16

/-- `{xfer_ok, rx0, rx1}` with the sixteen low bits given together (30_encoding.md R44). -/
def packBus (ok : Bit) (bytes : BitVec 16) : BusBits := ok ++ bytes

/-- `raw[15:0] = {rx0[7:0], rx1[7:0]}`: big-endian, the first byte received is the high byte (20_memory.md R25). -/
def assemble (rx0 rx1 : Byte) : RawWord := rx0 ++ rx1

/-- The bits of a word in the order they travel on the wire, most significant first (20_memory.md R24). -/
def wireBits {w : Nat} (v : BitVec w) : List Bool := (List.range w).map fun k => v.getMsbD k

end Sys2Proof.Machine

/-! ### The raw port -/

namespace Sys2Proof

/-- The port with every wire driven. -/
def RawPort.drive (raw : RawWord) : RawPort := { value := raw, driven := BitVec.allOnes 16 }

/-- The port with no wire driven. -/
def RawPort.floating : RawPort := { value := 0, driven := 0 }

/-- The canonical form of a port: an undriven wire carries no value of its own. -/
def RawPort.clean (p : RawPort) : RawPort := { p with value := p.value &&& p.driven }

/-- The word on the port's wires when the undriven wires carry `draw` (70_reset_and_hazards.md R82, D16). With every
wire driven that word is the driven value, whatever the draw. -/
def RawPort.seen (p : RawPort) (draw : RawWord) : RawWord :=
  if p.driven = BitVec.allOnes 16 then p.value else (p.value &&& p.driven) ||| (draw &&& ~~~p.driven)

end Sys2Proof

/-! ### The value of a reading -/

namespace Sys2Proof.Machine

/-- `T(q) = q * 0.25 degC`, exact (41_decode.md R53, R58). -/
def degC (q : Mag) : Rat := (q.toNat : Rat) * Config.scale

/-- `integer degrees = q >> 2 = q[11:2]` (41_decode.md R53). -/
def integerDegrees (q : Mag) : Nat := (q >>> 2).toNat

/-- `fraction = (q & 3) / 4` (41_decode.md R53). -/
def fractionDegrees (q : Mag) : Rat := ((q &&& 3).toNat : Rat) / 4

end Sys2Proof.Machine
end

