-- ==== Sys2Proof/Machine/State.lean ====
section
/-! DEFINITION. The results of the two units, what is on their ports, and the machine's state as plain data. The block
holds no storage (10_state.md R14 to R19, 70_reset_and_hazards.md R81): State holds what the outside presents and what
the consumer has been given, and every output is a function of it (Machine/Flags.lean). -/

namespace Sys2Proof.Machine

/-- The block's result: exactly one of the two (00_scope.md R11, 41_decode.md R47). The fault has no payload and is no
sentinel number (R58). -/
inductive Result where
  | reading (q : Mag)
  | sensorFault
deriving DecidableEq, Repr

/-- READ's result, over any type of transport error (42_read_wrapper.md R59, 90_conflicts.md C2). -/
inductive ReadResult (ε : Type) where
  | reading (q : Mag)
  | sensorFault
  | transport (e : ε)
deriving DecidableEq, Repr

/-- What one bus transfer of two bytes gives, over any type of transport error (30_encoding.md R44). -/
inductive BusResult (ε : Type) where
  | ok (rx0 rx1 : Byte)
  | err (e : ε)
deriving DecidableEq, Repr

/-- The block's output ports, taken as one pair (10_state.md R20, 70_reset_and_hazards.md R86). -/
structure BlockOut where
  faultOut  : Bit
  tempQ2Out : Mag
deriving DecidableEq, Repr

/-- The READ wrapper's output ports (42_read_wrapper.md R66), over any type of transport error. -/
structure WrapperOut (ε : Type) where
  xerrOut   : Bit
  faultOut  : Bit
  tempQ2Out : Mag
  errOut    : ε
deriving DecidableEq, Repr

/-- One completed evaluation as the consumer has it: the input and the result (60_exceptions.md R68; log 13). -/
inductive Report (ε : Type) where
  /-- The block alone. -/
  | block (raw : RawWord) (r : Result)
  /-- The READ wrapper. -/
  | wrapper (b : BusWord ε) (r : ReadResult ε)
deriving DecidableEq, Repr

/-- The machine's state over any type `ε` of transport error (`XferError` is an OPEN parameter: 00_scope.md R7).
`raw` and `bus` are what is on the input ports; `pending` is the producer's, `reports` the consumer's, `draws` the
model's own. -/
structure StateOf (ε : Type) where
  /-- What the producer presents next, first first: the program (10_state.md R15, log 3). -/
  pending : List (Stimulus ε)
  /-- The block's `raw` port (10_state.md R20). -/
  raw     : RawPort
  /-- The wrapper's input ports `xfer_ok`, `rx0`, `rx1`, `xfer_err`: the last transfer that completed, or none yet
  (30_encoding.md R44, 70_reset_and_hazards.md R82). -/
  bus     : Option (BusWord ε)
  /-- The results so far, oldest first (95_test_vectors.md section 3). -/
  reports : List (Report ε)
  /-- Selects the free values of the moment (log 4). -/
  draws   : Nat
deriving DecidableEq, Repr

/-- The machine's state: the five fields of `StateOf`, with named errors for `ε` (log 6). -/
structure State extends StateOf XferError
deriving DecidableEq, Repr

/-- Why the machine is stuck. -/
inductive Fault where
  /-- Raised by the step on a READ whose transfer never completes: the caller is stuck and gets no value
  (42_read_wrapper.md R65, I9). Safe: the model says nothing after it. Log 7. -/
  | transferNeverCompletes
deriving DecidableEq, Repr

/-- What the model gives no meaning. -/
inductive Refusal where
  /-- Raised by an arm of exec whose instruction has no meaning in this model. Safe. No arm raises it. -/
  | notModelled (mnemonic : String)
  /-- Raised by the step on a second caller's READ while one holds the bus: the spec gives concurrent use no meaning
  (60_exceptions.md R78, I11). Safe. Log 8. -/
  | concurrentRead
deriving DecidableEq, Repr

/-- What the step finds to do next (Machine/Fetch.lean). -/
inductive Fetched where
  /-- No evaluation: the moment passes and the outputs follow the ports. -/
  | settle (s : State)
  /-- The instruction to run, and the state it runs in. -/
  | run (i : Instr) (s : State)
  /-- The transfer never completes. -/
  | stuck
  /-- A second caller is on the bus. -/
  | contended
deriving DecidableEq, Repr

/-- At power-up: no wire of `raw` is driven, no READ has completed, nothing is presented, nothing reported
(70_reset_and_hazards.md R81, R82). There is no reset input and nothing to reset; log 12. -/
def State.reset : State :=
  { pending := [], raw := { value := 0, driven := 0 }, bus := none, reports := [], draws := 0 }

end Sys2Proof.Machine
end

