-- ==== Sys2Proof/Machine/Ops.lean ====
section
/-! DEFINITION. The operations that the meanings share: the decode function, READ, and the updates of State.

There is no memory operation (20_memory.md R26), no taking of an exception and no return from one: the block raises none
and no trap entry or return exists (60_exceptions.md R67, R72, R73). -/

namespace Sys2Proof.Machine

/-- `decode(raw)` (41_decode.md R47): total, and the fault bit alone decides (R57). -/
def decode (raw : RawWord) : Result := if faultBit raw = 1 then .sensorFault else .reading (magnitude raw)

/-- The block's result as READ returns it (42_read_wrapper.md R61). -/
def Result.toRead {ε : Type} : Result → ReadResult ε
  | .reading q   => .reading q
  | .sensorFault => .sensorFault

/-- READ: a transport error is passed verbatim and nothing is decoded; else the two bytes are assembled and decoded
(42_read_wrapper.md R59 to R61; the order is 60_exceptions.md R70). -/
def readResult {ε : Type} : BusResult ε → ReadResult ε
  | .err e      => .transport e
  | .ok rx0 rx1 => (decode (assemble rx0 rx1)).toRead

/-- The bus result that a BUSRES word stands for (30_encoding.md R44). -/
def busResult {ε : Type} (b : BusWord ε) : BusResult ε :=
  if xferOk b.bits = 0 then .err b.xferErr else .ok (busRx0 b.bits) (busRx1 b.bits)

/-- The outcome that a report records, over the three of 60_exceptions.md R68. -/
def Report.outcome {ε : Type} : Report ε → ReadResult ε
  | .block _ r   => r.toRead
  | .wrapper _ r => r

/-- The transfer that a report is of, if it is of one. -/
def Report.transfer? {ε : Type} : Report ε → Option (BusWord ε)
  | .block _ _   => none
  | .wrapper b _ => some b

/-- What the consumer is told of an input word: a function of that word alone (41_decode.md R47, 42_read_wrapper.md
R59). -/
def reportOf {ε : Type} : InputWord ε → Report ε
  | .w16 raw  => .block raw (decode raw)
  | .busres b => .wrapper b (readResult (busResult b))

namespace StateOf

variable {ε : Type}

/-- Drive a word on `raw` (30_encoding.md R45); the outputs follow. -/
def driveRaw (raw : RawWord) (s : StateOf ε) : StateOf ε := { s with raw := RawPort.drive raw }

/-- Leave wires of `raw` undriven (70_reset_and_hazards.md R82, D16). -/
def undriveRaw (p : RawPort) (s : StateOf ε) : StateOf ε := { s with raw := p.clean }

/-- A completed transfer on the wrapper's input ports (30_encoding.md R44). -/
def driveBus (b : BusWord ε) (s : StateOf ε) : StateOf ε := { s with bus := some b }

/-- Give the consumer a result (95_test_vectors.md section 3). -/
def report (r : Report ε) (s : StateOf ε) : StateOf ε := { s with reports := s.reports ++ [r] }

/-- The next moment: undriven wires and an idle `err_out` may carry other values (log 4). -/
def tick (s : StateOf ε) : StateOf ε := { s with draws := s.draws + 1 }

/-- What the producer presents next. -/
def present (xs : List (Stimulus ε)) (s : StateOf ε) : StateOf ε := { s with pending := xs }

/-- The last result (30_encoding.md R45, `EXPECT`). -/
def lastOutcome (s : StateOf ε) : Option (ReadResult ε) := s.reports.getLast?.map Report.outcome

/-- The last transfer that the consumer has a result of. -/
def lastTransfer (s : StateOf ε) : Option (BusWord ε) := (s.reports.filterMap Report.transfer?).getLast?

end StateOf

end Sys2Proof.Machine
end

