-- ==== Sys2Proof/Machine/DecodeFamily.lean ====
section
/-! DEFINITION. The meanings of the DECODE family (41_decode.md): the block's two operations. -/

namespace Sys2Proof.Machine

/-- `DECODE_READING` (41_decode.md R48): the word is driven, `result = Reading(q)` with `q = raw[14:3]`. `fault_out` and
`temp_q2_out` follow `raw` with no storage of their own (10_state.md R23); Obligations.DecodeReadingOutcome states the
values R48 gives them. -/
def execDecodeReading (sgn : Bit) (m : Mag) (d t : Bit) (s : State) : Host.Outcome State Fault Refusal :=
  let raw := packW16 sgn m 0 d t
  .next ⟨(s.driveRaw raw).report (.block raw (.reading m))⟩

/-- `DECODE_FAULT` (41_decode.md R49): the word is driven, `result = SensorFault`; the magnitude is read by nothing.
A normal result, not a trap (60_exceptions.md R69). -/
def execDecodeFault (sgn : Bit) (m : Mag) (d t : Bit) (s : State) : Host.Outcome State Fault Refusal :=
  let raw := packW16 sgn m 1 d t
  .next ⟨(s.driveRaw raw).report (.block raw .sensorFault)⟩

end Sys2Proof.Machine
end

