-- ==== Sys2Proof/Machine/ReadFamily.lean ====
section
/-! DEFINITION. The meanings of the READ family (42_read_wrapper.md): the Driver composition around the block. One line
is one READ and one transfer (R62), and READ keeps nothing for the next (R63). -/

namespace Sys2Proof.Machine

/-- `READ_XFER_ERR` (42_read_wrapper.md R60): `result = Transport(e)`, `e` verbatim; the bytes are read by nothing and
decode is not evaluated, so the block's `raw` port is left as it is (log 19). -/
def execReadXferErr (x : BitVec 16) (e : XferError) (s : State) : Host.Outcome State Fault Refusal :=
  let b : BusWord XferError := { bits := packBus 0 x, xferErr := e }
  .next ⟨(s.driveBus b).report (.wrapper b (.transport e))⟩

/-- `READ_OK` (42_read_wrapper.md R61): `raw = {rx0, rx1}` is driven into the block, `result = decode(raw)`. -/
def execReadOk (rx0 rx1 : Byte) (side : XferError) (s : State) : Host.Outcome State Fault Refusal :=
  let b : BusWord XferError := { bits := packBus 1 (rx0 ++ rx1), xferErr := side }
  let raw := assemble rx0 rx1
  .next ⟨((s.driveBus b).driveRaw raw).report (.wrapper b (decode raw).toRead)⟩

end Sys2Proof.Machine
end

