-- ==== Sys2Proof/Machine/Dispatch.lean ====
section
/-! DEFINITION. One arm per operation of the opcode table. -/

namespace Sys2Proof.Machine

def exec (i : Instr) (s : State) : Host.Outcome State Fault Refusal :=
  match i with
  | .decodeReading sgn m d t => Sys2Proof.Machine.execDecodeReading sgn m d t s
  | .decodeFault sgn m d t => Sys2Proof.Machine.execDecodeFault sgn m d t s
  | .readXferErr x e => Sys2Proof.Machine.execReadXferErr x e s
  | .readOk rx0 rx1 side => Sys2Proof.Machine.execReadOk rx0 rx1 side s

end Sys2Proof.Machine
end

