-- ==== Sys2Proof/WellFormed.lean ====
section
/-! DEFINITION. The checks on terms. An `Instr` and an `InputWord` need none: each operand's type is exactly its field
and every bit pattern of either format is legal (10_state.md R21, 30_encoding.md R36, R42). What can be ill formed is
a line of the stimulus notation (a numeral too wide for its field) and a `raw` port that carries a value on an
undriven wire. -/

namespace Sys2Proof

/-- The number of an `EXPECT` line is one that a reading can have (41_decode.md R54): `q` fits 12 bits, a temperature is
one of 0, 0.25, ..., 1023.75. DESIGN CHOICE (safe), log 25: R45 does not say that any other number is ill formed; as
text such a line is rejected, and not read as an assertion that fails. -/
def Expectation.wellFormed : Expectation → Bool
  | .reading q     => q < 4096
  | .readingDegC t => (t * 4).den == 1 && 0 ≤ t && t * 4 < 4096
  | .fault         => true
  | .transport _   => true

/-- The numerals of a line fit their fields: 16 bits for `<w16>`, 8 for `<b0>` and `<b1>` (30_encoding.md R45 gives the
fields' widths in the encodings). DESIGN CHOICE (safe), log 25: R45 does not say what a numeral that does not fit means;
here the line is ill formed and has no input word. -/
def Line.wellFormed : Line → Bool
  | .decode w     => w < 65536
  | .readOk b0 b1 => b0 < 256 && b1 < 256
  | .readErr _    => true
  | .expect x     => x.wellFormed

/-- The one form of a `raw` port: an undriven wire carries no value of its own, so that equal ports are equal data. -/
def RawPort.canonical (p : RawPort) : Bool := p.value &&& ~~~p.driven == 0

/-- A "well-formed sample" in the source's sense: bit 15 is 0 (00_scope.md R13, 10_state.md R21). The decoder does NOT
check it: a word that fails it is legal and decodes by the same rules. -/
def wellFormedSample (raw : RawWord) : Bool := !raw.getLsbD 15

end Sys2Proof
end

