-- ==== Sys2Proof/Decode.lean ====
section
/-! DEFINITION. The operation maps (30_encoding.md R41, R44), the decoder, total on the words of both formats (R36,
R42: no word is reserved or illegal), and after it the encoder. What can be rejected, by name, is a number that is no
word of either format. -/

namespace Sys2Proof

open Sys2Proof.Machine

/-- A row of an operation map: a word `w` selects it when `(w & mask) == match` (30_encoding.md R41). -/
structure OpcodeRow (width : Nat) where
  mask    : BitVec width
  pattern : BitVec width
deriving DecidableEq, Repr

/-- The word selects the row (30_encoding.md R41). -/
def OpcodeRow.selects {width : Nat} (r : OpcodeRow width) (w : BitVec width) : Bool := w &&& r.mask == r.pattern

/-- `DECODE_READING`: mask 0x0004, match 0x0000 (30_encoding.md R41). -/
def rowDecodeReading : OpcodeRow 16 := { mask := 0x0004, pattern := 0x0000 }

/-- `DECODE_FAULT`: mask 0x0004, match 0x0004 (30_encoding.md R41). -/
def rowDecodeFault : OpcodeRow 16 := { mask := 0x0004, pattern := 0x0004 }

/-- `READ_XFER_ERR`: mask 0x10000, match 0x00000 (30_encoding.md R44). -/
def rowReadXferErr : OpcodeRow 17 := { mask := 0x10000, pattern := 0x00000 }

/-- `READ_OK`: mask 0x10000, match 0x10000 (30_encoding.md R44). -/
def rowReadOk : OpcodeRow 17 := { mask := 0x10000, pattern := 0x10000 }

/-- Format W16: the first row of the map if the word selects it, else the second, which every other word selects
(30_encoding.md R36; Obligations.OperationMapsPartition states it). -/
def decodeW16 (raw : RawWord) : Instr :=
  if rowDecodeReading.selects raw then .decodeReading (dummySign raw) (magnitude raw) (deviceId raw) (triState raw)
  else .decodeFault (dummySign raw) (magnitude raw) (deviceId raw) (triState raw)

/-- Format BUSRES (30_encoding.md R44). -/
def decodeBusres (b : BusWord XferError) : Instr :=
  if rowReadXferErr.selects b.bits then .readXferErr (busBytes b.bits) b.xferErr
  else .readOk (busRx0 b.bits) (busRx1 b.bits) b.xferErr

/-- The decoder: the format comes with the port the word arrives at (30_encoding.md R35). -/
def decodeInput : InputWord XferError → Instr
  | .w16 raw  => decodeW16 raw
  | .busres b => decodeBusres b

/-- Why a number is no input word. -/
inductive Reject where
  /-- No format has this many bits (30_encoding.md R35). -/
  | noSuchLength
  /-- A bit is set above the format's highest bit (30_encoding.md R35). -/
  | bitsBeyondFormat
deriving DecidableEq, Repr

/-- The input word that a number of `nbits` bits stands for: up to 16 bits it is a W16 word, up to 24 (17 in whole
bytes) a BUSRES word; any other number is rejected. That the number of bits tells the format, the two rejections, and
the empty name for the side value `xfer_err`, which has no bits in the opcode table: DESIGN CHOICE (safe), log 11. -/
def inputOfNumber (nbits w : Nat) : Except Reject (InputWord XferError) :=
  if nbits = 0 then .error .noSuchLength
  else if nbits ≤ Config.wRaw then
    if w < 65536 then .ok (.w16 (BitVec.ofNat 16 w)) else .error .bitsBeyondFormat
  else if nbits ≤ 24 then
    if w < 131072 then .ok (.busres { bits := BitVec.ofNat 17 w, xferErr := { name := "" } }) else .error .bitsBeyondFormat
  else .error .noSuchLength

/-- The decoder on numbers: total, and rejecting by name. -/
def decodeNumber (nbits w : Nat) : Except Reject Instr :=
  match inputOfNumber nbits w with
  | .ok x    => .ok (decodeInput x)
  | .error r => .error r

/-- The instruction that the decoder reads from the word `w` of `nbits` bits, numbered as the opcode table numbers
them. -/
def decodeTableWord (nbits w : Nat) : Option Instr :=
  match decodeNumber nbits w with
  | .ok i    => some i
  | .error _ => none

/-- The encoder: the input word of an instruction, from the patterns of 30_encoding.md R41 and R44. -/
def encode : Instr → InputWord XferError
  | .decodeReading s m d t  => .w16 (packW16 s m 0 d t)
  | .decodeFault s m d t    => .w16 (packW16 s m 1 d t)
  | .readXferErr x e        => .busres { bits := packBus 0 x, xferErr := e }
  | .readOk rx0 rx1 side    => .busres { bits := packBus 1 (rx0 ++ rx1), xferErr := side }

end Sys2Proof
end

