-- ==== Sys2Proof/Machine/Fetch.lean ====
section
/-! DEFINITION. What a step finds to do: the block fetches no instruction (10_state.md R15); its "instruction" is the
word that the producer presents next. -/

namespace Sys2Proof.Machine

/-- Take the next stimulus. A word in either format is decoded and run; undriven wires and an empty queue are moments
with no sample, in which the outputs go on following the ports (70_reset_and_hazards.md R82; log 9). -/
def State.fetch (s : State) : Fetched :=
  match s.pending with
  | []                     => .settle ⟨s.tick⟩
  | .apply x :: rest       => .run (decodeInput x) ⟨s.tick.present rest⟩
  | .undrive p :: rest     => .settle ⟨(s.tick.present rest).undriveRaw p⟩
  | .transferHangs :: _    => .stuck
  | .secondCaller :: _     => .contended

/-- Put a word before everything that is pending, where the next step takes it; a number that is no input word changes
nothing. The producer is outside the machine (log 3). -/
def State.placeWord (nbits w : Nat) (s : State) : State :=
  match inputOfNumber nbits w with
  | .ok x    => ⟨s.present (.apply x :: s.pending)⟩
  | .error _ => s

end Sys2Proof.Machine
end

