-- ==== Sys2Proof/Machine/Step.lean ====
section
/-! DEFINITION. One step: one evaluation, or one moment without a sample. -/

namespace Sys2Proof.Machine

/-- One step (00_scope.md R12: produce, decode, consume). -/
def step (s : State) : Host.Outcome State Fault Refusal :=
  match s.fetch with
  | .settle s' => .next s'
  | .run i s'  => exec i s'
  | .stuck     => .fault .transferNeverCompletes
  | .contended => .refused .concurrentRead

/-- The state in which the next step runs the word `w` of `nbits` bits. -/
def State.withFetchWord (s : State) (nbits w : Nat) : State := s.placeWord nbits w

end Sys2Proof.Machine
end

