-- ==== Sys2Proof/Machine/OpenType.lean ====
section
/-! DEFINITION. The machine over any type of transport error: `XferError` is an OPEN parameter (00_scope.md R7,
42_read_wrapper.md R59, D9), and here it is the type argument `ε`. One evaluation is written from the rules of the two
functions, `decode` and READ (41_decode.md R47, 42_read_wrapper.md R60, R61), with no instruction in between;
Obligations.StepIsTheOpenTypeStep states that the machine of Machine/Step.lean is this one. -/

namespace Sys2Proof.Machine

/-- One evaluation of an input word: `decode` of a word on `raw`, or READ of a bus result, which decodes only a transfer
that completed. -/
def evaluate {ε : Type} (x : InputWord ε) (s : StateOf ε) : StateOf ε :=
  match x with
  | .w16 raw  => (s.driveRaw raw).report (.block raw (decode raw))
  | .busres b =>
    match busResult b with
    | .err e      => (s.driveBus b).report (.wrapper b (.transport e))
    | .ok rx0 rx1 => ((s.driveBus b).driveRaw (assemble rx0 rx1)).report (.wrapper b (readResult (.ok rx0 rx1)))

/-- One step over any type of transport error: one evaluation, or one moment without a sample (log 9). -/
def stepOf {ε : Type} (s : StateOf ε) : Host.Outcome (StateOf ε) Fault Refusal :=
  match s.pending with
  | []                  => .next s.tick
  | .apply x :: rest    => .next (evaluate x (s.tick.present rest))
  | .undrive p :: rest  => .next ((s.tick.present rest).undriveRaw p)
  | .transferHangs :: _ => .fault .transferNeverCompletes
  | .secondCaller :: _  => .refused .concurrentRead

end Sys2Proof.Machine
end

