-- ==== Sys2Proof/Machine/Flags.lean ====
section
/-! DEFINITION. The outputs: the block's flag and multiplexer (10_state.md R23, 41_decode.md R50), the wrapper's wires
(42_read_wrapper.md R66), the wire form of each result (30_encoding.md R43), and how a consumer reads them
(70_reset_and_hazards.md R86). All are functions; none is stored (10_state.md R14). -/

namespace Sys2Proof.Machine

/-- The output multiplexer: `fault_out <- raw[2]`, `temp_q2_out <- (raw[2] == 1) ? 0x000 : raw[14:3]`
(41_decode.md R50). -/
def blockWires (raw : RawWord) : BlockOut :=
  { faultOut := faultBit raw, tempQ2Out := if faultBit raw = 1 then 0 else magnitude raw }

/-- The same outputs as R50's gates: one wire, and twelve AND gates with the inverted fault bit (41_decode.md R50). -/
def blockGates (raw : RawWord) : BlockOut :=
  { faultOut := faultBit raw, tempQ2Out := magnitude raw &&& BitVec.replicate 12 (~~~faultBit raw) }

/-- The wire form of the block's result (30_encoding.md R43). -/
def Result.wires : Result → BlockOut
  | .reading q   => { faultOut := 0, tempQ2Out := q }
  | .sensorFault => { faultOut := 1, tempQ2Out := 0 }

/-- The result a consumer reads off the pair: the tag decides, and the number is looked at only after it
(30_encoding.md R43, 70_reset_and_hazards.md R86). -/
def BlockOut.result (o : BlockOut) : Result := if o.faultOut = 1 then .sensorFault else .reading o.tempQ2Out

/-- The temperature a consumer may take from the pair: none while `fault_out` is 1 (70_reset_and_hazards.md R86). -/
def BlockOut.temperature (o : BlockOut) : Option Rat := if o.faultOut = 1 then none else some (degC o.tempQ2Out)

/-- The wire form of READ's result (42_read_wrapper.md R66). `err_out` carries `idle`, any value, while `xerr_out`
is 0 (I6). -/
def ReadResult.wires {ε : Type} (idle : ε) : ReadResult ε → WrapperOut ε
  | .reading q   => { xerrOut := 0, faultOut := 0, tempQ2Out := q, errOut := idle }
  | .sensorFault => { xerrOut := 0, faultOut := 1, tempQ2Out := 0, errOut := idle }
  | .transport e => { xerrOut := 1, faultOut := 0, tempQ2Out := 0, errOut := e }

/-- The wrapper's outputs from its input wires: a failed transfer drives the error and forces the block's two outputs to
zero; else they are the block's outputs for the assembled word (42_read_wrapper.md R60, R61, R66). -/
def wrapperWires {ε : Type} (idle : ε) (b : BusWord ε) : WrapperOut ε :=
  if xferOk b.bits = 0 then { xerrOut := 1, faultOut := 0, tempQ2Out := 0, errOut := b.xferErr }
  else
    let o := blockWires (assemble (busRx0 b.bits) (busRx1 b.bits))
    { xerrOut := 0, faultOut := o.faultOut, tempQ2Out := o.tempQ2Out, errOut := idle }

/-- The word on `raw` at this moment (70_reset_and_hazards.md R82). -/
def StateOf.rawNow {ε : Type} (s : StateOf ε) : RawWord := s.raw.seen (Config.undrivenRaw s.draws)

/-- The block's outputs at this moment: a level that follows `raw`, at every moment (10_state.md R23,
70_reset_and_hazards.md R82). -/
def StateOf.blockOut {ε : Type} (s : StateOf ε) : BlockOut := blockWires s.rawNow

/-- The wrapper's outputs at this moment: none before a READ has completed (70_reset_and_hazards.md R82; log 17). -/
def StateOf.wrapperOut {ε : Type} [Inhabited ε] (s : StateOf ε) : Option (WrapperOut ε) :=
  s.bus.map (wrapperWires (Config.idleErrOut s.draws))

end Sys2Proof.Machine
end

