-- ==== Sys2Proof/Machine/Stimuli.lean ====
section
/-! DEFINITION. The stimulus notation of 30_encoding.md R45: how a line is read from its text, the input word of each
line, what an `EXPECT` line asserts, and the run of a list of lines, each a fresh evaluation. -/

namespace Sys2Proof.Machine

/-! ### From text to a line -/

/-- Why a text is no line of the notation. -/
inductive TextError where
  /-- Its words are none of the notation's six forms. -/
  | noSuchLine
  /-- A word that should be a numeral is none. -/
  | badNumeral
  /-- A numeral is too wide for its field. -/
  | tooWide
deriving DecidableEq, Repr

/-- A word collected so far, in front of the words that follow it. -/
def addWord (cur : List Char) (rest : List String) : List String :=
  if cur.isEmpty then rest else String.ofList cur.reverse :: rest

/-- The words of a line up to its comment, `;` (30_encoding.md R45). `cur` is the word being read, backwards. -/
def wordsFrom (cur : List Char) : List Char → List String
  | []      => addWord cur []
  | c :: cs =>
    if c = ';' then addWord cur []
    else if c.isWhitespace then addWord cur (wordsFrom [] cs)
    else wordsFrom (c :: cur) cs

/-- The value of a digit in a base up to 16. -/
def digitValue (base : Nat) (c : Char) : Option Nat :=
  let v := if c.isDigit then c.toNat - 48 else if 'a' ≤ c && c ≤ 'f' then c.toNat - 87
    else if 'A' ≤ c && c ≤ 'F' then c.toNat - 55 else 16
  if v < base then some v else none

/-- Digits in a base, most significant first, onto the value so far. DESIGN CHOICE (safe), log 24: where `_` is allowed
it is skipped wherever it stands (first, last, repeated); R45 says only that it is allowed. -/
def digitsFrom (base : Nat) (underscore : Bool) (acc : Nat) : List Char → Option Nat
  | []      => some acc
  | c :: cs =>
    if underscore && c = '_' then digitsFrom base underscore acc cs
    else (digitValue base c).bind fun v => digitsFrom base underscore (acc * base + v) cs

/-- A numeral in hex (`0x`), binary (`0b`, `_` allowed) or decimal (30_encoding.md R45). DESIGN CHOICE (safe), log 24: a
numeral has at least one digit, so that `0x`, `0b` and `0b_` are none. -/
def numeral (w : String) : Except TextError Nat :=
  let n := match w.toList with
    | '0' :: 'x' :: d :: ds => digitsFrom 16 false 0 (d :: ds)
    | '0' :: 'b' :: ds      => if ds.all (· = '_') then none else digitsFrom 2 true 0 ds
    | d :: ds               => digitsFrom 10 false 0 (d :: ds)
    | []                    => none
  match n with
  | some n => .ok n
  | none   => .error .badNumeral

/-- The `<q>` of `EXPECT READING`: quarter-degrees, or degrees where the numeral has a decimal point.
DESIGN CHOICE (safe), log 14: R45 allows both units and does not say how they are told apart, and it gives the forms of
`<w16>`, `<b0>` and `<b1>` only; here quarter-degrees take the same three forms (hex, binary, decimal), degrees are
decimal digits about one point. -/
def readingNumeral (w : String) : Except TextError Expectation :=
  match w.toList.span (· ≠ '.') with
  | (_, [])                 => (numeral w).map .reading
  | (whole, _ :: fraction)  =>
    match digitsFrom 10 false 0 whole, digitsFrom 10 false 0 fraction with
    | some n, some f =>
      if whole.isEmpty || fraction.isEmpty then .error .badNumeral
      else .ok (.readingDegC (n + f / 10 ^ fraction.length))
    | _, _           => .error .badNumeral

/-- A line, if its numerals fit their fields; else it is rejected as text (log 25). -/
def checkedLine (l : Line) : Except TextError (Option Line) := if l.wellFormed then .ok (some l) else .error .tooWide

/-- Read one line of text; a line that holds only a comment or nothing is no line (30_encoding.md R45). -/
def parseLine (text : String) : Except TextError (Option Line) :=
  match wordsFrom [] text.toList with
  | []                             => .ok none
  | ["DECODE", w]                  => (numeral w).bind fun n => checkedLine (.decode n)
  | ["READ", "OK", b0, b1]         =>
    (numeral b0).bind fun n0 => (numeral b1).bind fun n1 => checkedLine (.readOk n0 n1)
  | ["READ", "ERR", name]          => .ok (some (.readErr { name := name }))
  | ["EXPECT", "READING", q]       => (readingNumeral q).bind fun x => checkedLine (.expect x)
  | ["EXPECT", "FAULT"]            => .ok (some (.expect .fault))
  | ["EXPECT", "TRANSPORT", name]  => .ok (some (.expect (.transport { name := name })))
  | _                              => .error .noSuchLine

/-! ### From a line to its input word -/

/-- The input word of a line (30_encoding.md R45). `x` is the bits that do not matter in a `READ ERR` line, `side` the
side value that does not matter in a `READ OK` line: any value (log 22). An `EXPECT` line has none, nor has a line
whose numerals do not fit (log 25). -/
def lineInput (x : BitVec 16) (side : XferError) (l : Line) : Option (InputWord XferError) :=
  if l.wellFormed then
    match l with
    | .decode w     => some (.w16 (BitVec.ofNat 16 w))
    | .readOk b0 b1 => some (.busres { bits := packBus 1 (BitVec.ofNat 8 b0 ++ BitVec.ofNat 8 b1), xferErr := side })
    | .readErr e    => some (.busres { bits := packBus 0 x, xferErr := e })
    | .expect _     => none
  else none

/-- The last result is what the line asserts (30_encoding.md R45). -/
def expectationMet : Expectation → Option (ReadResult XferError) → Bool
  | .reading q, some (.reading r)       => r.toNat == q
  | .readingDegC t, some (.reading r)   => degC r == t
  | .fault, some .sensorFault           => true
  | .transport e, some (.transport e')  => e == e'
  | _, _                                => false

/-- Run one line: an `EXPECT` line checks the last result and changes nothing; any other line is presented and is one
step. None where the assertion fails, the numerals do not fit, or the step stops (log 25). -/
def runLine (x : BitVec 16) (side : XferError) (l : Line) (s : State) : Option State :=
  match l with
  | .expect e => if expectationMet e s.lastOutcome then some s else none
  | l         =>
    match lineInput x side l with
    | none   => none
    | some w =>
      match step ⟨s.present (.apply w :: s.pending)⟩ with
      | .next s' => some s'
      | _        => none

/-- Run lines in order (30_encoding.md R45). -/
def runLines (x : BitVec 16) (side : XferError) : List Line → State → Option State
  | [], s      => some s
  | l :: ls, s => (runLine x side l s).bind (runLines x side ls)

end Sys2Proof.Machine
end

