-- ==== Sys2Proof/Machine/Upstream.lean ====
section
/-! DEFINITION. The contracts of the two collaborators that the block depends on: the converter chip (60_exceptions.md
R76) and the bus (R77). What the spec does not give of them is not here (91_not_in_source.md N3, N5; log 21). -/

namespace Sys2Proof.Machine

/-- What the chip puts in one word, field by field (30_encoding.md R37). Everything but `isOpen` is any value: the
ignored bits (I1, I3, I4), and the magnitude too while the thermocouple is open (I2, 90_conflicts.md C4). -/
structure ChipSample where
  isOpen : Bool
  mag    : Mag
  sgn    : Bit
  devId  : Bit
  tri    : Bit
deriving DecidableEq, Repr

/-- The word of a sample: bit 2 is 1 exactly when the chip detects an open thermocouple (60_exceptions.md R76). -/
def ChipSample.word (c : ChipSample) : RawWord := packW16 c.sgn c.mag (if c.isOpen then 1 else 0) c.devId c.tri

/-- A transfer of `N_XFER_BYTES` = 2 bytes that completed, as the bus returns it (60_exceptions.md R77, 20_memory.md
R28): the word's high byte first. The side value is any value (30_encoding.md R44). -/
def ChipSample.transfer {ε : Type} (c : ChipSample) (side : ε) : BusWord ε :=
  { bits := packBus 1 c.word, xferErr := side }

/-- A transfer that failed: the received bytes, if any, are any value (60_exceptions.md R77, 42_read_wrapper.md R60). -/
def failedTransfer {ε : Type} (e : ε) (bytes : BitVec 16) : BusWord ε := { bits := packBus 0 bytes, xferErr := e }

end Sys2Proof.Machine
end

