-- ==== Sys2Proof/Safety.lean ====
section
/-! DEFINITION. The terms that claims use: the invariant of a run, what is observed of a step, the well-behaved
environment, the eight words of a reading, and the renaming of transport errors. -/

namespace Sys2Proof.Machine

/-- The report's result is the function of its own input that the spec gives: `decode` for the block
(41_decode.md R47), READ for the wrapper (42_read_wrapper.md R59). -/
def Report.Sound {ε : Type} : Report ε → Prop
  | .block raw r => r = decode raw
  | .wrapper b r => r = readResult (busResult b)

/-- The invariant: the `raw` port is in its one form, every result the consumer holds is the function of its own input
(20_memory.md R31, 42_read_wrapper.md R63), and the wrapper's input ports show the last transfer that was reported
(70_reset_and_hazards.md R82: a READ result exists only after a READ has completed; that they keep it through later DECODE
lines is log 2's choice). -/
structure StateOf.Inv {ε : Type} (s : StateOf ε) : Prop where
  rawCanonical     : s.raw.canonical = true
  reportsSound     : ∀ r ∈ s.reports, r.Sound
  busIsLastReport  : s.bus = s.lastTransfer

/-- What the environment may do so that the machine never stops: a transfer that ends, one caller at a time. -/
def benign {ε : Type} : Stimulus ε → Bool
  | .apply _       => true
  | .undrive _     => true
  | .transferHangs => false
  | .secondCaller  => false

/-- Two pictures of the wrapper's wires agree wherever R66 gives them a meaning: `err_out` counts only while `xerr_out`
is 1 (42_read_wrapper.md R66, I6). -/
structure WrapperOut.Agree {ε : Type} (o p : WrapperOut ε) : Prop where
  xerrOut   : o.xerrOut = p.xerrOut
  faultOut  : o.faultOut = p.faultOut
  tempQ2Out : o.tempQ2Out = p.tempQ2Out
  errOut    : o.xerrOut = 1 → o.errOut = p.errOut

/-- The second state shows what the first shows, wherever the spec fixes what is shown: the same ports, the same last
outcome, the block's outputs where every wire of `raw` is driven, the wrapper's where R66 gives them a meaning. -/
structure StateOf.ShowsTheSame {ε : Type} [Inhabited ε] (s t : StateOf ε) : Prop where
  raw         : s.raw = t.raw
  bus         : s.bus = t.bus
  lastOutcome : s.lastOutcome = t.lastOutcome
  blockOut    : s.raw.driven = BitVec.allOnes 16 → s.blockOut = t.blockOut
  wrapperOut  : Option.Rel WrapperOut.Agree s.wrapperOut t.wrapperOut

/-- What is seen of one step from a state: the reports it adds, or how it stops. -/
inductive Seen where
  | added (rs : List (Report XferError))
  | stopped (r : Fault)
  | refused (r : Refusal)
deriving DecidableEq, Repr

/-- What is seen of an outcome that began with `before` reports. -/
def seenOf (before : Nat) : Host.Outcome State Fault Refusal → Seen
  | .next s'   => .added (s'.reports.drop before)
  | .fault r   => .stopped r
  | .refused r => .refused r

/-- The words `{s, q[11:0], 0, d, t}` for the eight choices of `s`, `d` and `t` (41_decode.md R52). -/
def preimages (q : Mag) : List RawWord :=
  [0, 1].flatMap fun s : Bit => [0, 1].flatMap fun d : Bit => [0, 1].map fun t : Bit => s ++ q ++ (0 : Bit) ++ d ++ t

/-! ### Renaming transport errors (`XferError` is an open type: 42_read_wrapper.md R59, D9) -/

/-- Rename the error of a result. -/
def ReadResult.mapErr {α β : Type} (f : α → β) : ReadResult α → ReadResult β
  | .reading q   => .reading q
  | .sensorFault => .sensorFault
  | .transport e => .transport (f e)

/-- Rename the error of a bus result. -/
def BusResult.mapErr {α β : Type} (f : α → β) : BusResult α → BusResult β
  | .ok rx0 rx1 => .ok rx0 rx1
  | .err e      => .err (f e)

/-- Rename the side value. -/
def renameBus {α β : Type} (f : α → β) (b : BusWord α) : BusWord β := { bits := b.bits, xferErr := f b.xferErr }

/-- Rename the error on the wrapper's wires. -/
def WrapperOut.mapErr {α β : Type} (f : α → β) (o : WrapperOut α) : WrapperOut β :=
  { xerrOut := o.xerrOut, faultOut := o.faultOut, tempQ2Out := o.tempQ2Out, errOut := f o.errOut }

/-- Rename the error of a report. -/
def Report.mapErr {α β : Type} (f : α → β) : Report α → Report β
  | .block raw r => .block raw r
  | .wrapper b r => .wrapper (renameBus f b) (r.mapErr f)

/-- Rename the error of a stimulus. -/
def renameStimulus {α β : Type} (f : α → β) : Stimulus α → Stimulus β
  | .apply (.w16 raw)  => .apply (.w16 raw)
  | .apply (.busres b) => .apply (.busres (renameBus f b))
  | .undrive p         => .undrive p
  | .transferHangs     => .transferHangs
  | .secondCaller      => .secondCaller

/-- Rename every transport error that a state holds, into any other type. -/
def StateOf.mapErr {α β : Type} (f : α → β) (s : StateOf α) : StateOf β :=
  { pending := s.pending.map (renameStimulus f)
    raw     := s.raw
    bus     := s.bus.map (renameBus f)
    reports := s.reports.map (Report.mapErr f)
    draws   := s.draws }

/-- Rename every transport error of the machine's state. -/
def State.mapErr (f : XferError → XferError) (s : State) : State := ⟨s.toStateOf.mapErr f⟩

/-- Change the next state of an outcome, and leave a stop as it is. -/
def mapOutcome {σ τ : Type} (g : σ → τ) : Host.Outcome σ Fault Refusal → Host.Outcome τ Fault Refusal
  | .next s    => .next (g s)
  | .fault r   => .fault r
  | .refused r => .refused r

end Sys2Proof.Machine
end

