-- ==== Sys2Proof/Certificates/Slice0/Obligations.lean ====
section
/-! DEFINITION. The statements about the machine, each with the rule of the spec that it formalises. Fields of a word
are written here with `getLsbD` (one bit) and `extractLsb'` (low bit, width), not with the model's own functions. -/

open Sys2Proof Sys2Proof.Machine

/-! ### The DECODE family (41_decode.md) -/

/-- R48. Every word with bit 2 clear decodes to `DECODE_READING` with `q = raw[14:3]`; running it answers a next state in
which `raw` carries the word, `fault_out` is 0, `temp_q2_out` is `q` and the one new result is `Reading(q)`. -/
def Obligations.DecodeReadingOutcome : Prop :=
  ∀ (raw : RawWord) (s : State), raw.getLsbD 2 = false →
    ∃ sgn d t, decodeInput (.w16 raw) = .decodeReading sgn (raw.extractLsb' 3 12) d t ∧
      ∃ u, exec (.decodeReading sgn (raw.extractLsb' 3 12) d t) s = .next u ∧
        u.rawNow = raw ∧ u.blockOut.faultOut = 0 ∧ u.blockOut.tempQ2Out = raw.extractLsb' 3 12 ∧
        u.reports = s.reports ++ [.block raw (.reading (raw.extractLsb' 3 12))]

/-- R49. Every word with bit 2 set decodes to `DECODE_FAULT`, whatever its other bits; running it answers a next state
(no trap) in which `fault_out` is 1, `temp_q2_out` is 0 and the one new result is `SensorFault`. -/
def Obligations.DecodeFaultOutcome : Prop :=
  ∀ (raw : RawWord) (s : State), raw.getLsbD 2 = true →
    ∃ sgn m d t, decodeInput (.w16 raw) = .decodeFault sgn m d t ∧
      ∃ u, exec (.decodeFault sgn m d t) s = .next u ∧
        u.rawNow = raw ∧ u.blockOut.faultOut = 1 ∧ u.blockOut.tempQ2Out = 0 ∧
        u.reports = s.reports ++ [.block raw .sensorFault]

/-- The DECODE operations complete for every value of every field, in every state, and their frame: the word's fields
stand in `raw` as the pattern of R37 places them, what is pending and the model's counter are unchanged, and exactly one
result is added. That the wrapper's ports and wires are unchanged by a DECODE is the model's choice (log 2); its `err_out`
while `xerr_out` is 0 is the free value at the same counter (log 5). -/
def Obligations.DecodeFamilyCompletesAndFrame : Prop :=
  ∀ (sgn : Bit) (m : Mag) (d t : Bit) (s : State),
    (∃ u, exec (.decodeReading sgn m d t) s = .next u ∧ u.raw = RawPort.drive (sgn ++ m ++ 0#1 ++ d ++ t) ∧
      u.blockOut = { faultOut := 0, tempQ2Out := m } ∧
      u.reports = s.reports ++ [.block (sgn ++ m ++ 0#1 ++ d ++ t) (.reading m)] ∧
      u.bus = s.bus ∧ u.wrapperOut = s.wrapperOut ∧ u.pending = s.pending ∧ u.draws = s.draws) ∧
    (∃ u, exec (.decodeFault sgn m d t) s = .next u ∧ u.raw = RawPort.drive (sgn ++ m ++ 1#1 ++ d ++ t) ∧
      u.blockOut = { faultOut := 1, tempQ2Out := 0 } ∧
      u.reports = s.reports ++ [.block (sgn ++ m ++ 1#1 ++ d ++ t) .sensorFault] ∧
      u.bus = s.bus ∧ u.wrapperOut = s.wrapperOut ∧ u.pending = s.pending ∧ u.draws = s.draws)

/-- R51. For every word with bit 2 set, `decode(raw)` is `SensorFault`, whatever its magnitude; and so is what a READ
whose bytes assemble to it returns. -/
def Obligations.FaultPrecedence : Prop :=
  ∀ (raw : RawWord), raw.getLsbD 2 = true →
    decode raw = .sensorFault ∧
    readResult (ε := XferError) (.ok (raw.extractLsb' 8 8) (raw.extractLsb' 0 8)) = .sensorFault

/-- R52. Toggling bit 15, 1 or 0 changes no result, whether bit 2 is clear or set; and each reading has exactly eight
preimages, the words `{s, q, 0, d, t}`. -/
def Obligations.BitPositionIsolation : Prop :=
  (∀ (raw : RawWord) (i : Nat), i = 15 ∨ i = 1 ∨ i = 0 → decode (raw ^^^ (1#16 <<< i)) = decode raw) ∧
  (∀ q : Mag, (preimages q).length = 8 ∧ (preimages q).Nodup ∧
    ∀ raw : RawWord, decode raw = .reading q ↔ raw ∈ preimages q)

/-- R40. The bits 15, 1 and 0 reach no output: two words that differ in one of them, run in any one state, leave the same
pair of outputs and the same result. -/
def Obligations.IgnoredBitsReachNoOutput : Prop :=
  ∀ (raw : RawWord) (i : Nat) (s : State), i = 15 ∨ i = 1 ∨ i = 0 →
    ∃ u v, exec (decodeInput (.w16 raw)) s = .next u ∧
      exec (decodeInput (.w16 (raw ^^^ (1#16 <<< i)))) s = .next v ∧
      u.blockOut = v.blockOut ∧ u.lastOutcome = v.lastOutcome

/-- R50. With a word on `raw`, in any state: the outputs are the multiplexer's, the gates' (one wire and twelve AND
gates with the inverted fault bit), and the wire form of `decode(raw)`; the three descriptions agree. -/
def Obligations.MultiplexerIsDecode : Prop :=
  ∀ (raw : RawWord) (s : State), s.raw = RawPort.drive raw →
    s.blockOut = { faultOut := raw.extractLsb' 2 1,
                   tempQ2Out := if raw.extractLsb' 2 1 = 1#1 then 0 else raw.extractLsb' 3 12 } ∧
    s.blockOut = blockGates raw ∧ s.blockOut = (decode raw).wires

/-- R53. The value of a reading is exactly a quarter of its code: its integer degrees are `q[11:2]`, its fraction is the
two low bits over 4, and the two add up to it. -/
def Obligations.FixedPointScaling : Prop :=
  ∀ q : Mag, degC q = (q.toNat : Rat) * (1 / 4) ∧ degC q = (q.toNat : Rat) / 4 ∧
    integerDegrees q = (q.extractLsb' 2 10).toNat ∧ integerDegrees q ≤ 1023 ∧
    fractionDegrees q = ((q.extractLsb' 0 2).toNat : Rat) / 4 ∧
    (fractionDegrees q = 0 ∨ fractionDegrees q = 1 / 4 ∨ fractionDegrees q = 1 / 2 ∨ fractionDegrees q = 3 / 4) ∧
    degC q = (integerDegrees q : Rat) + fractionDegrees q

/-- R54. The temperatures that words decode to are exactly 0, 0.25, ..., 1023.75, and none of them is negative, bit 15
set or not. -/
def Obligations.ReadingRange : Prop :=
  {x : Rat | ∃ (raw : RawWord) (q : Mag), decode raw = .reading q ∧ degC q = x} =
    {x : Rat | ∃ k : Nat, k ≤ 4095 ∧ x = (k : Rat) / 4} ∧
  (∀ (raw : RawWord) (q : Mag), decode raw = .reading q → 0 ≤ degC q ∧ degC q ≤ 1023.75) ∧
  (∀ q q' : Mag, degC q = degC q' → q = q')

/-- R57. The fault bit alone decides: two words with the same bit 2 have the same tag, and under either tag every
magnitude occurs, all-ones and zero as well. -/
def Obligations.FaultBitAloneDecides : Prop :=
  (∀ raw raw' : RawWord, raw.getLsbD 2 = raw'.getLsbD 2 → (decode raw = .sensorFault ↔ decode raw' = .sensorFault)) ∧
  (∀ m : Mag, (∃ raw : RawWord, raw.extractLsb' 3 12 = m ∧ decode raw = .reading m) ∧
    (∃ raw : RawWord, raw.extractLsb' 3 12 = m ∧ decode raw = .sensorFault))

/-- R38, R39. The magnitude is bits 14 to 3, its bit `i` the word's bit `i + 3`, whatever bit 15; the fault bit is
bit 2. -/
def Obligations.FieldExtraction : Prop :=
  ∀ raw : RawWord, magnitude raw = raw.extractLsb' 3 12 ∧
    (∀ i < 12, (magnitude raw).getLsbD i = raw.getLsbD (i + 3)) ∧
    magnitude (raw ^^^ 0x8000#16) = magnitude raw ∧ faultBit raw = raw.extractLsb' 2 1

/-! ### The outputs -/

/-- R43. The wire form of each result, and that a consumer who looks at the tag alone gets the result back, so that
`Reading(0)` and `SensorFault` stay apart though both have the number 0. -/
def Obligations.OutputEncoding : Prop :=
  (∀ q : Mag, (Result.reading q).wires = { faultOut := 0, tempQ2Out := q }) ∧
  Result.sensorFault.wires = { faultOut := 1, tempQ2Out := 0 } ∧
  (∀ r : Result, r.wires.result = r)

/-- R22. In every state, at every moment, the output pair is the wire form of exactly one result; `fault_out` = 1 with a
number that is not 0 never occurs. -/
def Obligations.OutputPairAlwaysValid : Prop :=
  ∀ s : State, (∃ r : Result, r.wires = s.blockOut ∧ ∀ r' : Result, r'.wires = s.blockOut → r' = r) ∧
    ¬(s.blockOut.faultOut = 1 ∧ s.blockOut.tempQ2Out ≠ 0)

/-- R23. `fault_out` is set when bit 2 of `raw` is 1 and clear when it is 0, in every state at every moment: it is a copy
with no memory, so that a reading after a fault clears it. -/
def Obligations.FaultOutFollowsInput : Prop :=
  (∀ s : State, (s.blockOut.faultOut = 1 ↔ s.rawNow.getLsbD 2 = true) ∧
    (s.blockOut.faultOut = 0 ↔ s.rawNow.getLsbD 2 = false)) ∧
  (∀ (f r : RawWord) (s : State), f.getLsbD 2 = true → r.getLsbD 2 = false →
    ∃ u v, exec (decodeInput (.w16 f)) s = .next u ∧ exec (decodeInput (.w16 r)) u = .next v ∧
      u.blockOut.faultOut = 1 ∧ v.blockOut.faultOut = 0)

/-- R86. A consumer who checks `fault_out` first gets no temperature under a fault, and else a quarter of the number. -/
def Obligations.ConsumerTakesNoTemperatureFromFault : Prop :=
  ∀ s : State, (s.blockOut.faultOut = 1 → s.blockOut.temperature = none) ∧
    (s.blockOut.faultOut = 0 → s.blockOut.temperature = some (((s.rawNow.extractLsb' 3 12).toNat : Rat) / 4))

/-- R82 (the model's undriven wires: logs 4 and 9). In every state a driven wire of `raw` carries its own value and an
undriven one the free value of the moment; the outputs are `decode` of the word that results. A step without a sample
(nothing presented, or wires undriven) reports nothing, leaves the wrapper's input alone, and advances the counter, so
that undriven wires are drawn anew. -/
def Obligations.UndrivenInputIsADraw : Prop :=
  (∀ (s : State) (i : Nat), i < 16 → s.rawNow.getLsbD i =
    if s.raw.driven.getLsbD i then s.raw.value.getLsbD i else (Config.undrivenRaw s.draws).getLsbD i) ∧
  (∀ s : State, s.blockOut = (decode s.rawNow).wires) ∧
  (∀ s : State, s.pending = [] →
    ∃ t, step s = .next t ∧ t.raw = s.raw ∧ t.reports = s.reports ∧ t.bus = s.bus ∧ t.pending = [] ∧
      t.draws = s.draws + 1) ∧
  (∀ (s : State) (p : RawPort) (rest : List (Stimulus XferError)), s.pending = .undrive p :: rest →
    ∃ t, step s = .next t ∧ t.raw.driven = p.driven ∧ t.reports = s.reports ∧ t.bus = s.bus ∧ t.pending = rest ∧
      t.draws = s.draws + 1 ∧ t.rawNow = p.seen (Config.undrivenRaw t.draws))

/-! ### The READ family (42_read_wrapper.md) -/

/-- R60. Every bus word with `xfer_ok` = 0 decodes to `READ_XFER_ERR` with its side value; running it answers a next
state in which the one new result is `Transport(e)`, `e` verbatim, and the wires are `xerr_out` 1, `fault_out` 0,
`temp_q2_out` 0, `err_out` e. Nothing is decoded: the result is the error whatever the bytes. -/
def Obligations.ReadXferErrOutcome : Prop :=
  ∀ (b : BusWord XferError) (s : State), b.bits.getLsbD 16 = false →
    ∃ x, decodeInput (.busres b) = .readXferErr x b.xferErr ∧
      ∃ u, exec (.readXferErr x b.xferErr) s = .next u ∧
        u.reports = s.reports ++ [.wrapper b (.transport b.xferErr)] ∧
        u.wrapperOut = some { xerrOut := 1, faultOut := 0, tempQ2Out := 0, errOut := b.xferErr }

/-- R61. The bus word `{1, rx0, rx1}` decodes to `READ_OK`; running it answers a next state in which `raw` is
`rx0 * 256 + rx1`, the one new result is `SensorFault` if `rx1[2]` is 1 and else `Reading(raw[14:3])`, `fault_out` is
that of decode, and `xerr_out` is 0. That `fault_out` and `temp_q2_out` stand on two sets of wires, the block's and the
wrapper's, both driven by `READ_OK`, is the model's choice (log 2). -/
def Obligations.ReadOkOutcome : Prop :=
  ∀ (rx0 rx1 : Byte) (side : XferError) (s : State),
    decodeInput (.busres { bits := 1#1 ++ rx0 ++ rx1, xferErr := side }) = .readOk rx0 rx1 side ∧
    ∃ u o, exec (.readOk rx0 rx1 side) s = .next u ∧ u.rawNow.toNat = rx0.toNat * 256 + rx1.toNat ∧
      u.reports = s.reports ++ [.wrapper { bits := 1#1 ++ rx0 ++ rx1, xferErr := side }
        (if rx1.getLsbD 2 then .sensorFault else .reading (u.rawNow.extractLsb' 3 12))] ∧
      u.blockOut = (if rx1.getLsbD 2 then { faultOut := 1, tempQ2Out := 0 }
        else { faultOut := 0, tempQ2Out := u.rawNow.extractLsb' 3 12 }) ∧
      u.wrapperOut = some o ∧ o.xerrOut = 0 ∧ o.faultOut = u.blockOut.faultOut ∧ o.tempQ2Out = u.blockOut.tempQ2Out

/-- The READ operations complete for every value of every field, in every state, and their frame: what is pending and
the model's counter are unchanged, exactly one result is added, the wrapper's input ports show the transfer; a failed
transfer leaves the block's port and outputs as they are (log 19), a completed one drives the assembled word and nothing
else (log 2). -/
def Obligations.ReadFamilyCompletesAndFrame : Prop :=
  (∀ (x : BitVec 16) (e : XferError) (s : State),
    ∃ u, exec (.readXferErr x e) s = .next u ∧ u.bus = some { bits := 0#1 ++ x, xferErr := e } ∧
      u.reports = s.reports ++ [.wrapper { bits := 0#1 ++ x, xferErr := e } (.transport e)] ∧
      u.raw = s.raw ∧ u.blockOut = s.blockOut ∧ u.pending = s.pending ∧ u.draws = s.draws) ∧
  (∀ (rx0 rx1 : Byte) (side : XferError) (s : State),
    ∃ u r, exec (.readOk rx0 rx1 side) s = .next u ∧ u.bus = some { bits := 1#1 ++ rx0 ++ rx1, xferErr := side } ∧
      u.reports = s.reports ++ [.wrapper { bits := 1#1 ++ rx0 ++ rx1, xferErr := side } r] ∧
      u.raw = RawPort.drive (rx0 ++ rx1) ∧ u.pending = s.pending ∧ u.draws = s.draws)

/-- R61 (and log 2, the one block that both are of). A completed READ is the decode of the assembled word: run in any
state, `READ_OK` and the DECODE of `{rx0, rx1}` leave the same word on `raw`, the same pair of outputs and the same
outcome. -/
def Obligations.ReadOkIsDecodeOfAssembledWord : Prop :=
  ∀ (rx0 rx1 : Byte) (side : XferError) (s : State),
    ∃ u v, exec (.readOk rx0 rx1 side) s = .next u ∧ exec (decodeInput (.w16 (rx0 ++ rx1))) s = .next v ∧
      u.raw = v.raw ∧ u.blockOut = v.blockOut ∧ u.lastOutcome = v.lastOutcome

/-- R68, R70. A word on the block ends in `SensorFault` or `Reading`; a bus result ends in one of three outcomes, in this
priority: `Transport(e)` when the transfer failed, whatever the bytes; then `SensorFault` when bit 2 is set, whatever the
magnitude; else `Reading`. Each evaluation reports exactly that one outcome and no other. -/
def Obligations.OutcomesAndTheirPriority : Prop :=
  (∀ (raw : RawWord) (s : State), ∃ u r, exec (decodeInput (.w16 raw)) s = .next u ∧ u.reports = s.reports ++ [r] ∧
    r.outcome = (if raw.getLsbD 2 then .sensorFault else .reading (raw.extractLsb' 3 12))) ∧
  (∀ (b : BusWord XferError) (s : State), ∃ u r, exec (decodeInput (.busres b)) s = .next u ∧
    u.reports = s.reports ++ [r] ∧
    r.outcome = (if b.bits.getLsbD 16 = false then .transport b.xferErr
      else if b.bits.getLsbD 2 then .sensorFault else .reading (b.bits.extractLsb' 3 12)))

/-- R66. The wrapper's wires are the wire form of READ's result, whatever `err_out` carries when it has no meaning: the
three rows of the table; and `xerr_out` = 1 with `fault_out` = 1 never occurs, in any state. -/
def Obligations.WrapperWireForm : Prop :=
  (∀ (idle : XferError) (b : BusWord XferError), wrapperWires idle b = (readResult (busResult b)).wires idle) ∧
  (∀ (idle : XferError) (q : Mag), (ReadResult.reading q).wires idle =
    { xerrOut := 0, faultOut := 0, tempQ2Out := q, errOut := idle }) ∧
  (∀ idle : XferError, ReadResult.sensorFault.wires idle =
    { xerrOut := 0, faultOut := 1, tempQ2Out := 0, errOut := idle }) ∧
  (∀ idle e : XferError, (ReadResult.transport e).wires idle =
    { xerrOut := 1, faultOut := 0, tempQ2Out := 0, errOut := e }) ∧
  (∀ (s : State) (o : WrapperOut XferError), s.wrapperOut = some o → ¬(o.xerrOut = 1 ∧ o.faultOut = 1))

/-- R59 to R61, over every type of transport error (`XferError` is an open type). A failed transfer gives its error,
verbatim; a completed one gives what its big-endian word decodes to, `SensorFault` or a reading, and never a transport
error; and renaming the error, into any other type, before READ is renaming it after. -/
def Obligations.ReadIsTheSameOverEveryErrorType : Prop :=
  ∀ (α β : Type) (f : α → β),
    (∀ e : α, readResult (.err e) = .transport e) ∧
    (∀ rx0 rx1 : Byte, (∀ e : α, readResult (.ok rx0 rx1) ≠ .transport e) ∧
      readResult (ε := α) (.ok rx0 rx1) =
        if rx1.getLsbD 2 then .sensorFault else .reading ((rx0 ++ rx1).extractLsb' 3 12)) ∧
    (∀ r : BusResult α, readResult (r.mapErr f) = (readResult r).mapErr f)

/-! ### Byte and bit order (20_memory.md) -/

/-- R25. The two bytes of a transfer are one big-endian number, the first byte received the high byte; and that is the
word a completed READ decodes. -/
def Obligations.ByteOrderIsBigEndian : Prop :=
  ∀ (rx0 rx1 : Byte) (side : XferError) (s : State),
    (assemble rx0 rx1).toNat = rx0.toNat * 256 + rx1.toNat ∧
    (assemble rx0 rx1).extractLsb' 8 8 = rx0 ∧ (assemble rx0 rx1).extractLsb' 0 8 = rx1 ∧
    ∃ u, exec (.readOk rx0 rx1 side) s = .next u ∧ u.rawNow = assemble rx0 rx1

/-- R24. The word travels most significant bit first: the `k`th bit on the wire is `raw[15 - k]`; and the sixteen bits
of an assembled word are those of its first byte and then those of its second, each in that order. -/
def Obligations.WireBitOrderIsMsbFirst : Prop :=
  (∀ (raw : RawWord) (k : Nat), k < 16 → (wireBits raw)[k]? = some (raw.getLsbD (15 - k))) ∧
  (∀ raw : RawWord, (wireBits raw).length = 16) ∧
  (∀ rx0 rx1 : Byte, wireBits (assemble rx0 rx1) = wireBits rx0 ++ wireBits rx1)

/-! ### Encodings (30_encoding.md) -/

/-- R36. Every 16-bit word selects exactly one of the two W16 rows and decodes to that row's operation, and bit 2
decides which; the rows have the masks and matches of the operation map. The two BUSRES rows are told apart by bit 16 in
the same way. -/
def Obligations.OperationMapsPartition : Prop :=
  (rowDecodeReading = { mask := 0x0004, pattern := 0x0000 } ∧ rowDecodeFault = { mask := 0x0004, pattern := 0x0004 } ∧
    rowReadXferErr = { mask := 0x10000, pattern := 0x00000 } ∧ rowReadOk = { mask := 0x10000, pattern := 0x10000 }) ∧
  (∀ raw : RawWord,
    (rowDecodeReading.selects raw = true ↔ raw.getLsbD 2 = false) ∧
    (rowDecodeFault.selects raw = true ↔ raw.getLsbD 2 = true) ∧
    ((∃ s m d t, decodeInput (.w16 raw) = .decodeReading s m d t) ↔ rowDecodeReading.selects raw = true) ∧
    ((∃ s m d t, decodeInput (.w16 raw) = .decodeFault s m d t) ↔ rowDecodeFault.selects raw = true)) ∧
  (∀ b : BusWord XferError,
    (rowReadXferErr.selects b.bits = true ↔ b.bits.getLsbD 16 = false) ∧
    (rowReadOk.selects b.bits = true ↔ b.bits.getLsbD 16 = true) ∧
    ((∃ x e, decodeInput (.busres b) = .readXferErr x e) ↔ rowReadXferErr.selects b.bits = true) ∧
    ((∃ rx0 rx1 e, decodeInput (.busres b) = .readOk rx0 rx1 e) ↔ rowReadOk.selects b.bits = true))

/-- Decoding the encoding of any instruction gives it back, every field at every value. -/
def Obligations.DecodeOfEncode : Prop :=
  ∀ i : Instr, decodeInput (encode i) = i

/-- Encoding what any input word decodes to gives the word back: every bit of either format is kept, and there is no
second word for one instruction. That an instruction keeps the fields which nothing reads is the model's choice
(log 18). -/
def Obligations.EncodeOfDecode : Prop :=
  ∀ x : InputWord XferError, encode (decodeInput x) = x

/-- Words written out from the patterns of R37, R41 and R44 decode to the operations they stand for. That a number with
a bit above its format, or of a length that no format has, is rejected, each by its own name, is the model's choice
(log 11). -/
def Obligations.WrittenWordsDecode : Prop :=
  decodeInput (.w16 0b0000000000011000) = .decodeReading 0 3 0 0 ∧
  decodeInput (.w16 0b1111111111111011) = .decodeReading 1 0xFFF 1 1 ∧
  decodeInput (.w16 0b0000000000000100) = .decodeFault 0 0 0 0 ∧
  decodeInput (.w16 0b0000000000011110) = .decodeFault 0 3 1 0 ∧
  (∀ e, decodeInput (.busres ⟨0b10001100000000000, e⟩) = .readOk 0x18 0x00 e) ∧
  (∀ e, decodeInput (.busres ⟨0b00000000000011000, e⟩) = .readXferErr 0x0018 e) ∧
  decodeNumber 16 0x10004 = .error .bitsBeyondFormat ∧ decodeNumber 32 4 = .error .noSuchLength

/-- The input word of each line of the notation of R45: a `DECODE` line's is its number, a `READ OK` line's the 17 bits
`{1, b0, b1}`, a `READ ERR` line's `xfer_ok` 0, any bits and the name (log 22); an `EXPECT` line has none, whatever it
asserts. That a line whose number does not fit its field has none either is the model's choice (log 25). -/
def Obligations.LinesHaveTheirInputWords : Prop :=
  ∀ (x : BitVec 16) (side e : XferError),
    (∀ w : Nat, w < 65536 → ∃ raw, lineInput x side (.decode w) = some (.w16 raw) ∧ raw.toNat = w) ∧
    (∀ b0 b1 : Nat, b0 < 256 → b1 < 256 → ∃ b, lineInput x side (.readOk b0 b1) = some (.busres b) ∧
      b.bits.toNat = 65536 + b0 * 256 + b1) ∧
    (∃ b, lineInput x side (.readErr e) = some (.busres b) ∧ b.bits.toNat = x.toNat ∧ b.xferErr = e) ∧
    (∀ a : Expectation, lineInput x side (.expect a) = none) ∧
    (∀ w : Nat, 65536 ≤ w → lineInput x side (.decode w) = none) ∧
    (∀ b0 b1 : Nat, 256 ≤ b0 ∨ 256 ≤ b1 → lineInput x side (.readOk b0 b1) = none)

/-! ### The step -/

/-- When an input word is presented, the step runs the instruction it decodes to. That the word is the first of what is
pending and is taken from it, and that the step advances a counter, are the model's choices (logs 3 and 4). -/
def Obligations.StepRunsTheDecodedInstruction : Prop :=
  ∀ (s : State) (x : InputWord XferError) (rest : List (Stimulus XferError)), s.pending = .apply x :: rest →
    step s = exec (decodeInput x) { s with pending := rest, draws := s.draws + 1 }

/-- A word placed for the next step is the instruction the decoder reads from it, and the next step runs it in the state
as it was. The placing (log 3), the numbers that are words (log 11) and the counter that the step advances (log 4) are
the model's choices. -/
def Obligations.PlacedWordRunsNext : Prop :=
  ∀ (s : State) (nbits w : Nat) (i : Instr), decodeTableWord nbits w = some i →
    step (s.withFetchWord nbits w) = exec i { s with draws := s.draws + 1 }

/-- R67. No instruction traps: each answers a next state, in every state; and so does a step that is given any word on
`raw` or any completed transfer. -/
def Obligations.NoInputTraps : Prop :=
  (∀ (i : Instr) (s : State), ∃ t, exec i s = .next t) ∧
  (∀ (s : State) (x : InputWord XferError) (rest : List (Stimulus XferError)), s.pending = .apply x :: rest → ∃ t, step s = .next t)

/-- When the machine stops (logs 7 and 8; that a step with nothing pending, or with wires undriven, answers a next state is
the model's choice, log 9): a step faults exactly when a transfer never completes (R65) and is refused
exactly when a second caller is on the bus (R78); in every other state it answers a next state. -/
def Obligations.StepStopsOnlyOnTheEnvironment : Prop :=
  ∀ s : State,
    ((∃ r, step s = .fault r) ↔ ∃ rest, s.pending = .transferHangs :: rest) ∧
    ((∃ r, step s = .refused r) ↔ ∃ rest, s.pending = .secondCaller :: rest) ∧
    ((∃ t, step s = .next t) ↔ ∀ x rest, s.pending = x :: rest → benign x = true)

/-- R65. A READ whose transfer never completes has no result: the step is stuck, under its own name, and no step of any
length from there answers a state. -/
def Obligations.BlockedReadHasNoResult : Prop :=
  ∀ (s : State) (rest : List (Stimulus XferError)), s.pending = .transferHangs :: rest →
    step s = .fault .transferNeverCompletes ∧
    ∀ n : Nat, (Host.Core.run Sys2Proof.core (n + 1) s : Host.Outcome State Fault Refusal) =
      .fault .transferNeverCompletes

/-- R56, R29. Evaluating the same input again shows the same: run twice, an operation leaves the same ports, the same
last outcome, the same outputs of the block where every wire of `raw` is driven, and wires of the wrapper that agree
wherever R66 gives them a meaning (`err_out` only while `xerr_out` is 1); and so do two steps of a run in which one input
word is presented twice. That the counter differs between these two steps, so that the free values of the two moments
are drawn apart (which does not say that they differ), is the model's choice (logs 3, 4 and 5). -/
def Obligations.EvaluationIsIdempotent : Prop :=
  (∀ (i : Instr) (s : State), ∃ u v, exec i s = .next u ∧ exec i u = .next v ∧ u.ShowsTheSame v.toStateOf) ∧
  (∀ (s : State) (x : InputWord XferError) (rest : List (Stimulus XferError)),
    s.pending = .apply x :: .apply x :: rest →
    ∃ u v, step s = .next u ∧ step u = .next v ∧ u.draws ≠ v.draws ∧ u.ShowsTheSame v.toStateOf)

/-! ### The whole machine -/

/-- At reset nothing is driven, presented, transferred or reported; the outputs are `decode` of a draw (R81, R82; the
values are log 12's). -/
def Obligations.ResetHoldsNothing : Prop :=
  State.reset.raw.driven = 0 ∧ State.reset.bus = none ∧ State.reset.wrapperOut = none ∧ State.reset.pending = [] ∧
  State.reset.reports = [] ∧
  State.reset.blockOut = (decode (Config.undrivenRaw State.reset.draws)).wires

/-- The invariant holds at reset. The spec has no reset; the values of State.reset are the model's choice (log 12). -/
def Obligations.ResetMeetsInvariant : Prop := State.reset.Inv

/-- Every step keeps the invariant, from every state that meets it: the raw port stays in its one form, every result
the consumer holds is the function of its own input (R31, R63), and the wrapper's ports show the last transfer reported.
That they keep it through later DECODE lines is the model's choice (log 2). -/
def Obligations.StepKeepsInvariant : Prop :=
  ∀ s s' : State, s.Inv → step s = .next s' → s'.Inv

/-- In every state that meets the invariant, the wrapper's wires are the wire form (R66) of the last READ's result, however
many evaluations of the block alone came after it. That DECODE lines leave the wrapper's wires alone is the model's choice
(log 2), and `err_out` while `xerr_out` is 0 is the free value of the moment (log 5). -/
def Obligations.WrapperShowsTheLastRead : Prop :=
  ∀ (s : State) (before after : List (Report XferError)) (b : BusWord XferError) (r : ReadResult XferError), s.Inv →
    s.reports = before ++ .wrapper b r :: after → (∀ x ∈ after, x.transfer? = none) →
    s.wrapperOut = some (r.wires (Config.idleErrOut s.draws))

/-- R63, R31. Evaluations are independent: from any state, inputs presented one after another add, one by one, the
results that each has alone (`decode` of the word, or READ of the bus result), whatever came before; a fault or an
error is not remembered. -/
def Obligations.EachEvaluationDependsOnItsInputAlone : Prop :=
  ∀ (xs : List (InputWord XferError)) (rest : List (Stimulus XferError)) (s : State), s.pending = xs.map .apply ++ rest →
    ∃ t : State, (Host.Core.run Sys2Proof.core xs.length s : Host.Outcome State Fault Refusal) = .next t ∧
      t.pending = rest ∧ t.reports = s.reports ++ xs.map reportOf

/-- R31, R63. No hidden state: two machines that are presented the same, whatever else differs between them, show the
same after any number of steps: the same new results, or the same stop. -/
def Obligations.NoStateReachesTheResults : Prop :=
  ∀ (n : Nat) (s t : State), s.pending = t.pending →
    seenOf s.reports.length (Host.Core.run Sys2Proof.core n s) = seenOf t.reports.length (Host.Core.run Sys2Proof.core n t)

/-- R59, D9 (with the model's named errors, log 6). The machine does not look inside a transport error: renaming the errors of a state and stepping is stepping
and renaming. -/
def Obligations.StepCommutesWithErrorRenaming : Prop :=
  ∀ (f : XferError → XferError) (s : State), step (s.mapErr f) = mapOutcome (State.mapErr f) (step s)

/-- R76, R77 (the collaborators' contracts as log 21 models them). From the chip to the consumer: a READ of a sample
gives `SensorFault` exactly when the thermocouple is open, whatever the magnitude, and else the sample's magnitude,
whatever the three ignored bits; a failed transfer gives its error, whatever the bytes. That the block's outputs, which
follow the sample's word, are left as they were by a failed transfer, but for the draw of undriven wires at the counter
that the step advances (log 4), is the model's choice (logs 2 and 19). -/
def Obligations.ChipToConsumer : Prop :=
  (∀ (c : ChipSample) (side : XferError) (rest : List (Stimulus XferError)) (s : State),
    s.pending = .apply (.busres (c.transfer side)) :: rest →
    ∃ t, step s = .next t ∧ t.lastOutcome = some (if c.isOpen then .sensorFault else .reading c.mag) ∧
      t.blockOut.temperature = if c.isOpen then none else some ((c.mag.toNat : Rat) / 4)) ∧
  (∀ (e : XferError) (bytes : BitVec 16) (rest : List (Stimulus XferError)) (s : State),
    s.pending = .apply (.busres (failedTransfer e bytes)) :: rest →
    ∃ t, step s = .next t ∧ t.lastOutcome = some (.transport e) ∧ t.blockOut = { s with draws := s.draws + 1 }.blockOut)

/-! ### Any type of transport error, and the lines of the notation -/

/-- R7, R59 (`XferError` is an open parameter). The machine over any type of transport error: renaming the errors of a
state into any other type and stepping is stepping and renaming, and the wrapper's wires are renamed alike, whatever
`err_out` carries while it has no meaning. -/
def Obligations.OpenTypeStepCommutesWithRenaming : Prop :=
  (∀ (α β : Type) (f : α → β) (s : StateOf α), stepOf (s.mapErr f) = mapOutcome (StateOf.mapErr f) (stepOf s)) ∧
  (∀ (α β : Type) (f : α → β) (idle : α) (b : BusWord α),
    wrapperWires (f idle) (renameBus f b) = (wrapperWires idle b).mapErr f)

/-- R7, R47, R60, R61. The machine that decodes an instruction and runs it is the machine over any type of transport
error, which evaluates `decode` and READ with no instruction in between, at the type of named errors (log 6). -/
def Obligations.StepIsTheOpenTypeStep : Prop :=
  ∀ s : State, step s = mapOutcome State.mk (stepOf s.toStateOf)

/-- R45. An `EXPECT` line asserts the last result and changes nothing: it passes exactly when the last result is the
reading whose code, or whose temperature, the line gives, or `SensorFault`, or `Transport` of the error it names; with no
result yet it fails. That a line which fails ends a run with no state is the model's choice (log 25). -/
def Obligations.ExpectLinesAssertTheLastResult : Prop :=
  ∀ (x : BitVec 16) (side : XferError) (s t : State),
    (∀ q : Nat, runLine x side (.expect (.reading q)) s = some t ↔
      t = s ∧ ∃ r : Mag, s.lastOutcome = some (.reading r) ∧ r.toNat = q) ∧
    (∀ c : Rat, runLine x side (.expect (.readingDegC c)) s = some t ↔
      t = s ∧ ∃ r : Mag, s.lastOutcome = some (.reading r) ∧ (r.toNat : Rat) / 4 = c) ∧
    (runLine x side (.expect .fault) s = some t ↔ t = s ∧ s.lastOutcome = some .sensorFault) ∧
    (∀ e : XferError, runLine x side (.expect (.transport e)) s = some t ↔
      t = s ∧ s.lastOutcome = some (.transport e))

/-- R45. A `DECODE` or `READ` line whose numbers fit is one fresh evaluation, from any state: it adds exactly one result,
`decode` of its word, READ of its bytes, or its error, and leaves what is pending as it was. That a line whose numbers
do not fit ends a run with no state is the model's choice (log 25). -/
def Obligations.LinesRunAsOneEvaluation : Prop :=
  ∀ (x : BitVec 16) (side : XferError) (s : State),
    (∀ w : Nat, w < 65536 → ∃ t r, runLine x side (.decode w) s = some t ∧ t.reports = s.reports ++ [r] ∧
      t.pending = s.pending ∧ r.outcome = (decode (BitVec.ofNat 16 w)).toRead) ∧
    (∀ b0 b1 : Nat, b0 < 256 → b1 < 256 → ∃ t r, runLine x side (.readOk b0 b1) s = some t ∧
      t.reports = s.reports ++ [r] ∧ t.pending = s.pending ∧
      r.outcome = (decode (BitVec.ofNat 16 (b0 * 256 + b1))).toRead) ∧
    (∀ e : XferError, ∃ t r, runLine x side (.readErr e) s = some t ∧ t.reports = s.reports ++ [r] ∧
      t.pending = s.pending ∧ r.outcome = .transport e) ∧
    (∀ w : Nat, 65536 ≤ w → runLine x side (.decode w) s = none) ∧
    (∀ b0 b1 : Nat, 256 ≤ b0 ∨ 256 ≤ b1 → runLine x side (.readOk b0 b1) s = none)
end

