-- ==== Sys2Proof/Laws/Operands.lean ====
section
/-! SUPPORT. The fields of an assembled word, and a word as its fields. -/

namespace Sys2Proof.Machine

/-- The shift and mask of 30_encoding.md R38 select bits 14 to 3. -/
theorem magnitude_getLsbD (raw : RawWord) (i : Nat) :
    (magnitude raw).getLsbD i = (decide (i < 12) && raw.getLsbD (i + 3)) := by
  unfold magnitude
  by_cases h : i < 12
  · have hm : ∀ (j : Nat) (_ : j < 12), (0xFFF#12)[j] = true := by decide
    simp [h, Config.magLo, Nat.add_comm]
    exact fun _ => hm i h
  · simp [h]

/-- The shift and mask of 30_encoding.md R39 select bit 2. -/
theorem faultBit_getLsbD (raw : RawWord) : (faultBit raw).getLsbD 0 = raw.getLsbD 2 := by
  simp [faultBit, Config.faultBit]

/-- The fault bit as a number is bit 2. -/
theorem faultBit_eq_one (raw : RawWord) : faultBit raw = 1 ↔ raw.getLsbD 2 = true := by
  rw [← faultBit_getLsbD]
  generalize faultBit raw = f
  revert f; decide

theorem packW16_getLsbD (s : Bit) (m : Mag) (f d t : Bit) (i : Nat) :
    (packW16 s m f d t).getLsbD i =
      if i < 1 then t.getLsbD i else if i < 2 then d.getLsbD (i - 1) else if i < 3 then f.getLsbD (i - 2)
      else if i < 15 then m.getLsbD (i - 3) else s.getLsbD (i - 15) := by
  unfold packW16
  simp only [BitVec.getLsbD_append]
  grind

theorem magnitude_packW16 (s : Bit) (m : Mag) (f d t : Bit) : magnitude (packW16 s m f d t) = m := by
  refine BitVec.eq_of_getLsbD_eq fun i hi => ?_
  rw [magnitude_getLsbD, packW16_getLsbD]
  grind

theorem faultBit_packW16 (s : Bit) (m : Mag) (f d t : Bit) : faultBit (packW16 s m f d t) = f := by
  refine BitVec.eq_of_getLsbD_eq fun i hi => ?_
  obtain rfl : i = 0 := by omega
  rw [faultBit_getLsbD, packW16_getLsbD]
  simp

theorem packBus_getLsbD (ok : Bit) (x : BitVec 16) (i : Nat) :
    (packBus ok x).getLsbD i = if i < 16 then x.getLsbD i else ok.getLsbD (i - 16) := by
  unfold packBus; rw [BitVec.getLsbD_append]

/-- A word is its five fields (30_encoding.md R37). -/
theorem packW16_fields (raw : RawWord) :
    packW16 (dummySign raw) (magnitude raw) (faultBit raw) (deviceId raw) (triState raw) = raw := by
  refine BitVec.eq_of_getLsbD_eq fun i hi => ?_
  rw [packW16_getLsbD, magnitude_getLsbD]
  split
  · obtain rfl : i = 0 := by omega
    simp [triState]
  split
  · obtain rfl : i = 1 := by omega
    simp [deviceId]
  split
  · obtain rfl : i = 2 := by omega
    rw [faultBit_getLsbD]
  split
  · rw [show i - 3 + 3 = i by omega]; simp; omega
  · obtain rfl : i = 15 := by omega
    simp [dummySign]

/-- A bus word is `xfer_ok` above its sixteen bits (30_encoding.md R44). -/
theorem packBus_fields (b : BusBits) : packBus (xferOk b) (busBytes b) = b := by
  refine BitVec.eq_of_getLsbD_eq fun i hi => ?_
  rw [packBus_getLsbD]; unfold xferOk busBytes
  rw [BitVec.getLsbD_extractLsb', BitVec.getLsbD_extractLsb']
  split
  · simp [*]
  · obtain rfl : i = 16 := by omega
    simp

/-- The sixteen bits of a bus word are its two bytes, the first received above the second (30_encoding.md R44). -/
theorem busRx0_append_busRx1 (b : BusBits) : busRx0 b ++ busRx1 b = busBytes b :=
  BitVec.extractLsb'_append_extractLsb'_eq_extractLsb' (by rfl)

/-- `xfer_ok` as a number is bit 16. -/
theorem xferOk_eq_zero (b : BusBits) : xferOk b = 0 ↔ b.getLsbD 16 = false := by
  have h : (xferOk b).getLsbD 0 = b.getLsbD 16 := by
    unfold xferOk; rw [BitVec.getLsbD_extractLsb']; simp
  rw [← h]; generalize xferOk b = f; revert f; decide

/-- The byte assembly of 20_memory.md R25 as a number. -/
theorem assemble_toNat (rx0 rx1 : Byte) : (assemble rx0 rx1).toNat = rx0.toNat * 256 + rx1.toNat := by
  unfold assemble
  rw [BitVec.toNat_append, ← Nat.shiftLeft_add_eq_or_of_lt rx1.isLt, Nat.shiftLeft_eq]

end Sys2Proof.Machine
end

