-- ==== Sys2Proof/Laws/State.lean ====
section
/-! SUPPORT. What each update of State leaves in each field, and the canonical form of the `raw` port. -/

namespace Sys2Proof.Machine

variable {ε : Type}

@[simp] theorem driveRaw_pending (raw : RawWord) (s : StateOf ε) : (s.driveRaw raw).pending = s.pending := rfl

@[simp] theorem driveRaw_raw (raw : RawWord) (s : StateOf ε) : (s.driveRaw raw).raw = RawPort.drive raw := rfl

@[simp] theorem driveRaw_bus (raw : RawWord) (s : StateOf ε) : (s.driveRaw raw).bus = s.bus := rfl

@[simp] theorem driveRaw_reports (raw : RawWord) (s : StateOf ε) : (s.driveRaw raw).reports = s.reports := rfl

@[simp] theorem driveRaw_draws (raw : RawWord) (s : StateOf ε) : (s.driveRaw raw).draws = s.draws := rfl

@[simp] theorem undriveRaw_pending (p : RawPort) (s : StateOf ε) : (s.undriveRaw p).pending = s.pending := rfl

@[simp] theorem undriveRaw_raw (p : RawPort) (s : StateOf ε) : (s.undriveRaw p).raw = p.clean := rfl

@[simp] theorem undriveRaw_bus (p : RawPort) (s : StateOf ε) : (s.undriveRaw p).bus = s.bus := rfl

@[simp] theorem undriveRaw_reports (p : RawPort) (s : StateOf ε) : (s.undriveRaw p).reports = s.reports := rfl

@[simp] theorem undriveRaw_draws (p : RawPort) (s : StateOf ε) : (s.undriveRaw p).draws = s.draws := rfl

@[simp] theorem driveBus_pending (b : BusWord ε) (s : StateOf ε) : (s.driveBus b).pending = s.pending := rfl

@[simp] theorem driveBus_raw (b : BusWord ε) (s : StateOf ε) : (s.driveBus b).raw = s.raw := rfl

@[simp] theorem driveBus_bus (b : BusWord ε) (s : StateOf ε) : (s.driveBus b).bus = some b := rfl

@[simp] theorem driveBus_reports (b : BusWord ε) (s : StateOf ε) : (s.driveBus b).reports = s.reports := rfl

@[simp] theorem driveBus_draws (b : BusWord ε) (s : StateOf ε) : (s.driveBus b).draws = s.draws := rfl

@[simp] theorem report_pending (r : Report ε) (s : StateOf ε) : (s.report r).pending = s.pending := rfl

@[simp] theorem report_raw (r : Report ε) (s : StateOf ε) : (s.report r).raw = s.raw := rfl

@[simp] theorem report_bus (r : Report ε) (s : StateOf ε) : (s.report r).bus = s.bus := rfl

@[simp] theorem report_reports (r : Report ε) (s : StateOf ε) : (s.report r).reports = s.reports ++ [r] := rfl

@[simp] theorem report_draws (r : Report ε) (s : StateOf ε) : (s.report r).draws = s.draws := rfl

@[simp] theorem tick_pending (s : StateOf ε) : s.tick.pending = s.pending := rfl

@[simp] theorem tick_raw (s : StateOf ε) : s.tick.raw = s.raw := rfl

@[simp] theorem tick_bus (s : StateOf ε) : s.tick.bus = s.bus := rfl

@[simp] theorem tick_reports (s : StateOf ε) : s.tick.reports = s.reports := rfl

@[simp] theorem tick_draws (s : StateOf ε) : s.tick.draws = s.draws + 1 := rfl

@[simp] theorem present_pending (xs : List (Stimulus ε)) (s : StateOf ε) : (s.present xs).pending = xs := rfl

@[simp] theorem present_raw (xs : List (Stimulus ε)) (s : StateOf ε) : (s.present xs).raw = s.raw := rfl

@[simp] theorem present_bus (xs : List (Stimulus ε)) (s : StateOf ε) : (s.present xs).bus = s.bus := rfl

@[simp] theorem present_reports (xs : List (Stimulus ε)) (s : StateOf ε) : (s.present xs).reports = s.reports := rfl

@[simp] theorem present_draws (xs : List (Stimulus ε)) (s : StateOf ε) : (s.present xs).draws = s.draws := rfl

/-! ### The raw port -/

@[simp] theorem drive_value (raw : RawWord) : (RawPort.drive raw).value = raw := rfl

@[simp] theorem drive_driven (raw : RawWord) : (RawPort.drive raw).driven = BitVec.allOnes 16 := rfl

/-- A fully driven port carries the driven word, whatever the draw. -/
theorem seen_drive (raw draw : RawWord) : (RawPort.drive raw).seen draw = raw := by
  simp [RawPort.seen]

theorem drive_canonical (raw : RawWord) : (RawPort.drive raw).canonical = true := by
  simp [RawPort.canonical]

theorem clean_canonical (p : RawPort) : p.clean.canonical = true := by
  have h : p.value &&& p.driven &&& ~~~p.driven = 0 := by
    rw [BitVec.and_assoc, BitVec.and_not_self]; simp
  simpa [RawPort.canonical, RawPort.clean] using h

/-- Cleaning a port changes nothing that can be seen on its wires. -/
theorem seen_clean (p : RawPort) (draw : RawWord) : p.clean.seen draw = p.seen draw := by
  unfold RawPort.seen RawPort.clean
  by_cases h : p.driven = BitVec.allOnes 16
  · simp only [h, if_true, BitVec.and_allOnes]
  · simp only [h, if_false]; rw [BitVec.and_assoc, BitVec.and_self]

/-- What each wire of the port carries. -/
theorem seen_getLsbD (p : RawPort) (draw : RawWord) (i : Nat) (h : i < 16) :
    (p.seen draw).getLsbD i = if p.driven.getLsbD i then p.value.getLsbD i else draw.getLsbD i := by
  unfold RawPort.seen
  split
  · rename_i hd; rw [hd, BitVec.getLsbD_allOnes]; simp only [h, decide_true, if_true]
  · rw [BitVec.getLsbD_or, BitVec.getLsbD_and, BitVec.getLsbD_and, BitVec.getLsbD_not]
    cases p.driven.getLsbD i <;> simp [h]

end Sys2Proof.Machine
end

