-- ==== Sys2Proof/Laws/Ops.lean ====
section
/-! SUPPORT. What each meaning, the fetch and the step can do, said once. -/

namespace Sys2Proof.Machine

/-! ### decode and the bus result, by the bit that decides -/

theorem decode_of_clear {raw : RawWord} (h : raw.getLsbD 2 = false) : decode raw = .reading (magnitude raw) := by
  unfold decode; rw [if_neg (by rw [faultBit_eq_one, h]; decide)]

theorem decode_of_set {raw : RawWord} (h : raw.getLsbD 2 = true) : decode raw = .sensorFault := by
  unfold decode; rw [if_pos ((faultBit_eq_one raw).2 h)]

theorem busResult_of_failed {ε : Type} {b : BusWord ε} (h : b.bits.getLsbD 16 = false) : busResult b = .err b.xferErr := by
  unfold busResult; rw [if_pos ((xferOk_eq_zero b.bits).2 h)]

theorem busResult_of_completed {ε : Type} {b : BusWord ε} (h : b.bits.getLsbD 16 = true) :
    busResult b = .ok (busRx0 b.bits) (busRx1 b.bits) := by
  unfold busResult; rw [if_neg (by rw [xferOk_eq_zero, h]; decide)]

/-! ### The meanings as equations -/

theorem exec_decodeReading (sgn : Bit) (m : Mag) (d t : Bit) (s : State) :
    exec (.decodeReading sgn m d t) s =
      .next ⟨(s.driveRaw (packW16 sgn m 0 d t)).report (.block (packW16 sgn m 0 d t) (.reading m))⟩ := rfl

theorem exec_decodeFault (sgn : Bit) (m : Mag) (d t : Bit) (s : State) :
    exec (.decodeFault sgn m d t) s =
      .next ⟨(s.driveRaw (packW16 sgn m 1 d t)).report (.block (packW16 sgn m 1 d t) .sensorFault)⟩ := rfl

theorem exec_readXferErr (x : BitVec 16) (e : XferError) (s : State) :
    exec (.readXferErr x e) s =
      .next ⟨(s.driveBus { bits := packBus 0 x, xferErr := e }).report
        (.wrapper { bits := packBus 0 x, xferErr := e } (.transport e))⟩ := rfl

theorem exec_readOk (rx0 rx1 : Byte) (side : XferError) (s : State) :
    exec (.readOk rx0 rx1 side) s =
      .next ⟨((s.driveBus { bits := packBus 1 (rx0 ++ rx1), xferErr := side }).driveRaw (assemble rx0 rx1)).report
          (.wrapper { bits := packBus 1 (rx0 ++ rx1), xferErr := side } (decode (assemble rx0 rx1)).toRead)⟩ := rfl

/-! ### The fetch and the step, by what is presented -/

theorem fetch_nil {s : State} (h : s.pending = []) : s.fetch = .settle ⟨s.tick⟩ := by
  unfold State.fetch; rw [h]

theorem fetch_apply {s : State} {x : InputWord XferError} {rest : List (Stimulus XferError)}
    (h : s.pending = .apply x :: rest) :
    s.fetch = .run (decodeInput x) ⟨s.tick.present rest⟩ := by
  unfold State.fetch; rw [h]

theorem fetch_undrive {s : State} {p : RawPort} {rest : List (Stimulus XferError)}
    (h : s.pending = .undrive p :: rest) :
    s.fetch = .settle ⟨(s.tick.present rest).undriveRaw p⟩ := by
  unfold State.fetch; rw [h]

theorem fetch_transferHangs {s : State} {rest : List (Stimulus XferError)}
    (h : s.pending = .transferHangs :: rest) :
    s.fetch = .stuck := by
  unfold State.fetch; rw [h]

theorem fetch_secondCaller {s : State} {rest : List (Stimulus XferError)}
    (h : s.pending = .secondCaller :: rest) :
    s.fetch = .contended := by
  unfold State.fetch; rw [h]

/-- Everything a step that answers a next state can have done. -/
theorem step_cases {s s' : State} (h : step s = .next s') :
    (s.pending = [] ∧ s' = ⟨s.tick⟩) ∨
    (∃ p rest, s.pending = .undrive p :: rest ∧ s' = ⟨(s.tick.present rest).undriveRaw p⟩) ∨
    (∃ x rest, s.pending = .apply x :: rest ∧ exec (decodeInput x) ⟨s.tick.present rest⟩ = .next s') := by
  unfold step at h
  match hp : s.pending with
  | [] => rw [fetch_nil hp] at h; exact .inl ⟨rfl, (Host.Outcome.next.inj h).symm⟩
  | .apply x :: rest => rw [fetch_apply hp] at h; exact .inr (.inr ⟨x, rest, rfl, h⟩)
  | .undrive p :: rest =>
    rw [fetch_undrive hp] at h; exact .inr (.inl ⟨p, rest, rfl, (Host.Outcome.next.inj h).symm⟩)
  | .transferHangs :: rest => rw [fetch_transferHangs hp] at h; cases h
  | .secondCaller :: rest => rw [fetch_secondCaller hp] at h; cases h

/-! ### The machine over any type of error, by what is presented -/

section
variable {ε : Type}

theorem evaluate_w16 (raw : RawWord) (s : StateOf ε) :
    evaluate (.w16 raw) s = (s.driveRaw raw).report (.block raw (decode raw)) := rfl

theorem evaluate_failed {b : BusWord ε} (h : b.bits.getLsbD 16 = false) (s : StateOf ε) :
    evaluate (.busres b) s = (s.driveBus b).report (.wrapper b (.transport b.xferErr)) := by
  unfold evaluate; simp only [busResult_of_failed h]

theorem evaluate_completed {b : BusWord ε} (h : b.bits.getLsbD 16 = true) (s : StateOf ε) :
    evaluate (.busres b) s = ((s.driveBus b).driveRaw (busBytes b.bits)).report
      (.wrapper b (decode (busBytes b.bits)).toRead) := by
  unfold evaluate readResult assemble; simp only [busResult_of_completed h, busRx0_append_busRx1]

/-- An evaluation adds exactly the report of its input. -/
theorem evaluate_reports (x : InputWord ε) (s : StateOf ε) :
    (evaluate x s).reports = s.reports ++ [reportOf x] := by
  cases x with
  | w16 raw => rfl
  | busres b => cases h : busResult b <;> simp only [evaluate, reportOf, h] <;> rfl

theorem stepOf_nil {s : StateOf ε} (h : s.pending = []) : stepOf s = .next s.tick := by
  unfold stepOf; rw [h]

theorem stepOf_apply {s : StateOf ε} {x : InputWord ε} {rest : List (Stimulus ε)}
    (h : s.pending = .apply x :: rest) : stepOf s = .next (evaluate x (s.tick.present rest)) := by
  unfold stepOf; rw [h]

theorem stepOf_undrive {s : StateOf ε} {p : RawPort} {rest : List (Stimulus ε)}
    (h : s.pending = .undrive p :: rest) : stepOf s = .next ((s.tick.present rest).undriveRaw p) := by
  unfold stepOf; rw [h]

theorem stepOf_transferHangs {s : StateOf ε} {rest : List (Stimulus ε)}
    (h : s.pending = .transferHangs :: rest) : stepOf s = .fault .transferNeverCompletes := by
  unfold stepOf; rw [h]

theorem stepOf_secondCaller {s : StateOf ε} {rest : List (Stimulus ε)}
    (h : s.pending = .secondCaller :: rest) : stepOf s = .refused .concurrentRead := by
  unfold stepOf; rw [h]

end

/-! ### Runs of many steps, by their first step -/

theorem run_next (n : Nat) {s s' : State} (h : step s = .next s') :
    (Host.Core.run Sys2Proof.core (n + 1) s : Host.Outcome State Fault Refusal) =
      Host.Core.run Sys2Proof.core n s' := by
  have e := Host.Core.run.eq_2 Sys2Proof.core s n
  rw [show Sys2Proof.core.step s = .next s' from h] at e
  exact e

theorem run_fault (n : Nat) {s : State} {r : Fault} (h : step s = .fault r) :
    (Host.Core.run Sys2Proof.core (n + 1) s : Host.Outcome State Fault Refusal) = .fault r := by
  have e := Host.Core.run.eq_2 Sys2Proof.core s n
  rw [show Sys2Proof.core.step s = .fault r from h] at e
  exact e

theorem run_refused (n : Nat) {s : State} {r : Refusal} (h : step s = .refused r) :
    (Host.Core.run Sys2Proof.core (n + 1) s : Host.Outcome State Fault Refusal) = .refused r := by
  have e := Host.Core.run.eq_2 Sys2Proof.core s n
  rw [show Sys2Proof.core.step s = .refused r from h] at e
  exact e

/-! ### The outputs -/

variable {ε : Type}

/-- With a word driven, `raw` carries it at every moment. -/
theorem rawNow_of_driven {s : StateOf ε} {raw : RawWord} (h : s.raw = RawPort.drive raw) : s.rawNow = raw := by
  unfold StateOf.rawNow; rw [h, seen_drive]

theorem blockOut_of_driven {s : StateOf ε} {raw : RawWord} (h : s.raw = RawPort.drive raw) :
    s.blockOut = blockWires raw := by
  unfold StateOf.blockOut; rw [rawNow_of_driven h]

theorem wrapperOut_of_bus [Inhabited ε] {s : StateOf ε} {b : BusWord ε} (h : s.bus = some b) :
    s.wrapperOut = some (wrapperWires (Config.idleErrOut s.draws) b) := by
  unfold StateOf.wrapperOut; rw [h]; rfl

/-- A report adds one to the consumer's list and is then the last outcome. -/
theorem lastOutcome_report (r : Report ε) (s : StateOf ε) : (s.report r).lastOutcome = some r.outcome := by
  simp [StateOf.lastOutcome]

end Sys2Proof.Machine
end

