-- ==== Sys2Proof/Laws/PerInstr.lean ====
section
/-! SUPPORT. The family OpcodeRow: every operation's encoding selects its own row of the operation map and not the other
row of its format (30_encoding.md R41, R44). -/

namespace Sys2Proof.Laws.OpcodeRow

open Sys2Proof.Machine

/-- The encoding of the instruction is in its format and selects its row alone. -/
def Statement : Instr → Prop
  | .decodeReading s m d t =>
    ∃ w, encode (.decodeReading s m d t) = .w16 w ∧ rowDecodeReading.selects w = true ∧ rowDecodeFault.selects w = false
  | .decodeFault s m d t =>
    ∃ w, encode (.decodeFault s m d t) = .w16 w ∧ rowDecodeFault.selects w = true ∧ rowDecodeReading.selects w = false
  | .readXferErr x e =>
    ∃ b, encode (.readXferErr x e) = .busres { bits := b, xferErr := e } ∧
      rowReadXferErr.selects b = true ∧ rowReadOk.selects b = false
  | .readOk rx0 rx1 side =>
    ∃ b, encode (.readOk rx0 rx1 side) = .busres { bits := b, xferErr := side } ∧
      rowReadOk.selects b = true ∧ rowReadXferErr.selects b = false

/-- The W16 mask keeps the fault bit of an assembled word and nothing else. -/
theorem packW16_and_mask (s : Bit) (m : Mag) (f d t : Bit) :
    packW16 s m f d t &&& 4#16 = if f = 1#1 then 4#16 else 0#16 := by
  have h4 : ∀ i < 16, (4#16).getLsbD i = decide (i = 2) := by decide
  have hf : ∀ g : Bit, ¬g = 1#1 → g[0] = false := by decide
  refine BitVec.eq_of_getLsbD_eq fun i hi => ?_
  rw [BitVec.getLsbD_and, h4 i hi, packW16_getLsbD]
  by_cases h2 : i = 2
  · subst h2
    by_cases h : f = 1#1
    · simp [h]
    · simp [h, hf f h]
  · by_cases h : f = 1#1 <;> simp [h2, h, h4 i hi]

/-- The BUSRES mask keeps `xfer_ok` of an assembled word and nothing else. -/
theorem packBus_and_mask (ok : Bit) (x : BitVec 16) :
    packBus ok x &&& 65536#17 = if ok = 1#1 then 65536#17 else 0#17 := by
  have h4 : ∀ i < 17, (65536#17).getLsbD i = decide (i = 16) := by decide
  have hf : ∀ g : Bit, ¬g = 1#1 → g[0] = false := by decide
  refine BitVec.eq_of_getLsbD_eq fun i hi => ?_
  rw [BitVec.getLsbD_and, h4 i hi, packBus_getLsbD]
  by_cases h2 : i = 16
  · subst h2
    by_cases h : ok = 1#1
    · simp [h]
    · simp [h, hf ok h]
  · by_cases h : ok = 1#1 <;> simp [h2, h, h4 i hi]

theorem decodeReading (s : Bit) (m : Mag) (d t : Bit) : Statement (.decodeReading s m d t) :=
  ⟨_, rfl, by simp [OpcodeRow.selects, rowDecodeReading, packW16_and_mask],
    by simp [OpcodeRow.selects, rowDecodeFault, packW16_and_mask]⟩

theorem decodeFault (s : Bit) (m : Mag) (d t : Bit) : Statement (.decodeFault s m d t) :=
  ⟨_, rfl, by simp [OpcodeRow.selects, rowDecodeFault, packW16_and_mask],
    by simp [OpcodeRow.selects, rowDecodeReading, packW16_and_mask]⟩

theorem readXferErr (x : BitVec 16) (e : XferError) : Statement (.readXferErr x e) :=
  ⟨_, rfl, by simp [OpcodeRow.selects, rowReadXferErr, packBus_and_mask],
    by simp [OpcodeRow.selects, rowReadOk, packBus_and_mask]⟩

theorem readOk (rx0 rx1 : Byte) (side : XferError) : Statement (.readOk rx0 rx1 side) :=
  ⟨_, rfl, by simp [OpcodeRow.selects, rowReadOk, packBus_and_mask],
    by simp [OpcodeRow.selects, rowReadXferErr, packBus_and_mask]⟩

end Sys2Proof.Laws.OpcodeRow
end

