-- ==== Sys2Proof/Tests/Slice0.lean ====
section
/-! SUPPORT. Tests: expected values are those of 95_test_vectors.md and of the patterns of 30_encoding.md, and for every
statement with hypotheses a state and operands that meet them. -/

namespace Sys2Proof.Tests

open Sys2Proof.Machine

/-- A state with the given stimuli pending and nothing else. -/
def pendingState (xs : List (Stimulus XferError)) : State := ⟨State.reset.present xs⟩

/-- What a run of one step leaves, if it answers a next state. -/
def afterStep (s : State) : Option State :=
  match step s with
  | .next t => some t
  | _ => none

/-- The results after one step from reset with the given word placed. -/
def resultsOf (nbits w : Nat) : Option (List (ReadResult XferError)) :=
  (afterStep (State.reset.withFetchWord nbits w)).map fun t => t.reports.map Report.outcome

/-! ### The checks of WellFormed refuse -/

theorem test_decode_numeral_too_wide_is_ill_formed : (Line.decode 65536).wellFormed = false := by decide

theorem test_first_byte_too_wide_is_ill_formed : (Line.readOk 256 0).wellFormed = false := by decide

theorem test_second_byte_too_wide_is_ill_formed : (Line.readOk 0 256).wellFormed = false := by decide

theorem test_expected_code_too_wide_is_ill_formed : (Line.expect (.reading 4096)).wellFormed = false := by decide

theorem test_expected_tenth_of_degree_is_ill_formed :
    (Line.expect (.readingDegC (1 / 10))).wellFormed = false := by
  norm_num [Line.wellFormed, Expectation.wellFormed]

theorem test_expected_negative_is_ill_formed :
    (Line.expect (.readingDegC (-1 / 4))).wellFormed = false := by
  norm_num [Line.wellFormed, Expectation.wellFormed]

theorem test_expected_1024_degrees_is_ill_formed :
    (Line.expect (.readingDegC 1024)).wellFormed = false := by
  norm_num [Line.wellFormed, Expectation.wellFormed]

theorem test_value_on_undriven_wire_is_not_canonical :
    RawPort.canonical { value := 1, driven := 0xFFFE } = false := by decide

theorem test_bit_15_is_no_wellformed_sample_yet_decodes :
    wellFormedSample 0x8018 = false ∧ decode 0x8018 = .reading 3 := by decide

/-! ### Words written out from the patterns decode (30_encoding.md R37, R41, R44) -/

/-- `s mmmmmmmmmmmm 0 d t` with s 1, m 000000000011, d 0, t 1. -/
theorem test_decode_reading_word :
    decodeTableWord 16 0b1000000000011001 = some (.decodeReading 1 0b000000000011 0 1) := by decide

/-- `s mmmmmmmmmmmm 1 d t` with s 0, m 111111111111, d 1, t 0. -/
theorem test_decode_fault_word :
    decodeTableWord 16 0b0111111111111110 = some (.decodeFault 0 0b111111111111 1 0) := by decide

/-- `0 xxxxxxxxxxxxxxxx`. -/
theorem test_read_xfer_err_word :
    decodeTableWord 24 0b01000000000000001 = some (.readXferErr 0b1000000000000001 { name := "" }) := by decide

/-- `1 bbbbbbbbbbbbbbbb` with rx0 00011000, rx1 00000000. -/
theorem test_read_ok_word :
    decodeTableWord 24 0b10001100000000000 = some (.readOk 0b00011000 0b00000000 { name := "" }) := by decide

theorem test_bit_above_w16_is_rejected : decodeNumber 16 0x10000 = .error .bitsBeyondFormat := by decide

theorem test_bit_above_busres_is_rejected : decodeNumber 24 0x20000 = .error .bitsBeyondFormat := by decide

theorem test_32_bits_is_no_format : decodeNumber 32 0 = .error .noSuchLength := by decide

/-! ### Instructions (95_test_vectors.md section 2) -/

/-- `0x7FFB`: all-ones magnitude and both low bits set is a reading. -/
theorem test_reading_all_ones : resultsOf 16 0x7FFB = some [.reading 4095] := by decide

/-- `0x0320`: 25.00 degC on the outputs. -/
theorem test_reading_25_degrees :
    (afterStep (pendingState [.apply (.w16 0x0320)])).map (fun t => t.blockOut) =
      some { faultOut := 0, tempQ2Out := 100 } := by decide

/-- `0x7FFC`: all-ones magnitude with bit 2 set is a fault. -/
theorem test_fault_all_ones : resultsOf 16 0x7FFC = some [.sensorFault] := by decide

/-- `0x001C`: the magnitude 3 is discarded. -/
theorem test_fault_discards_magnitude :
    (afterStep (pendingState [.apply (.w16 0x001C)])).map (fun t => t.blockOut) =
      some { faultOut := 1, tempQ2Out := 0 } := by decide

/-- `READ OK 0x18 0x00` gives 192.00 degC, not 0.75. -/
theorem test_read_ok_byte_order : resultsOf 24 0x11800 = some [.reading 768] := by decide

/-- `READ OK 0x01 0x94`: magnitude 50 present but bit 2 set. -/
theorem test_read_ok_fault : resultsOf 24 0x10194 = some [.sensorFault] := by decide

/-- `READ ERR E1`, with bytes that would decode to a fault: the error, and the wires of 42_read_wrapper.md R66. -/
theorem test_read_err_is_verbatim :
    (afterStep (pendingState [.apply (.busres { bits := 0x0FFFF, xferErr := { name := "E1" } })])).map
        (fun t => (t.lastOutcome, t.wrapperOut, t.raw)) =
      some (some (.transport { name := "E1" }),
        some { xerrOut := 1, faultOut := 0, tempQ2Out := 0, errOut := { name := "E1" } },
        State.reset.raw) := by decide

/-- A fault leaves no memory (P2, lines 3 and 4). -/
theorem test_fault_is_not_remembered :
    ((afterStep (pendingState [.apply (.busres { bits := 0x10194, xferErr := { name := "" } }),
        .apply (.busres { bits := 0x10190, xferErr := { name := "" } })])).bind afterStep).map
      (fun t => t.reports.map Report.outcome) = some [.sensorFault, .reading 50] := by decide

/-! ### Temperatures (95_test_vectors.md S3 to S6) -/

theorem test_largest_temperature : degC 4095 = 1023.75 := by
  show ((4095 : Nat) : Rat) * (1 / 4) = _
  norm_num

theorem test_three_quarters : (Result.reading 3).wires.temperature = some 0.75 := by
  show some (((3 : Nat) : Rat) * (1 / 4)) = _
  norm_num

theorem test_fixed_parameters_agree :
    Config.magHi + 1 - Config.magLo = Config.wMag ∧ Config.wTemp = Config.wMag ∧
      8 * Config.nXferBytes = Config.wRaw ∧ Config.wRaw + 1 = Config.wBus := by decide

/-! ### The stimulus notation (30_encoding.md R45) -/

theorem test_text_decode_binary :
    parseLine "DECODE 0b0000_0000_0001_1000 ; scenario 1" = .ok (some (.decode 0x18)) := by decide

theorem test_text_read_ok : parseLine "READ OK 0x7F 252" = .ok (some (.readOk 127 252)) := by decide

theorem test_text_degrees :
    readingNumeral "0.75" = .ok (.readingDegC ((0 : Nat) + (75 : Nat) / 10 ^ 2)) := rfl

theorem test_text_comment : parseLine "; nothing" = .ok none := by decide

theorem test_text_too_wide : parseLine "DECODE 0x10000" = .error .tooWide := by decide

/-- Log 24: `_` anywhere, and at least one digit. -/
theorem test_text_underscores_and_no_digit :
    parseLine "DECODE 0b_1__0_" = .ok (some (.decode 2)) ∧ parseLine "DECODE 0b_" = .error .badNumeral := by decide

/-- Log 14: quarter-degrees in hex. -/
theorem test_text_expect_hex : parseLine "EXPECT READING 0xFFF" = .ok (some (.expect (.reading 4095))) := by decide

/-- Log 25: no reading has the code 4096. -/
theorem test_text_expect_too_wide : parseLine "EXPECT READING 4096" = .error .tooWide := by decide

theorem test_text_unknown : parseLine "FETCH 0x0" = .error .noSuchLine := by decide

theorem test_text_bad_numeral : parseLine "DECODE 0xG" = .error .badNumeral := by decide

theorem test_expect_checks_last_result :
    ((runLine 0 { name := "" } (.decode 0x18) State.reset).bind
      (runLine 0 { name := "" } (.expect (.reading 3)))).isSome = true ∧
    ((runLine 0 { name := "" } (.decode 0x18) State.reset).bind
      (runLine 0 { name := "" } (.expect .fault))).isSome = false := by decide

/-! ### Hypotheses of the statements are met -/

theorem witness_bit2_clear : (0x7FFB : RawWord).getLsbD 2 = false ∧ (0x8000 : RawWord).getLsbD 2 = false := by decide

theorem witness_bit2_set : (0x0004 : RawWord).getLsbD 2 = true ∧ (0xFFFF : RawWord).getLsbD 2 = true := by decide

theorem witness_same_bit2 : (0xFFFF : RawWord).getLsbD 2 = (0x0004 : RawWord).getLsbD 2 := by decide

theorem witness_bit16 : (0x0FFFF : BusBits).getLsbD 16 = false ∧ (0x10000 : BusBits).getLsbD 16 = true := by decide

theorem witness_driven : (State.reset.driveRaw 0x0018).raw = RawPort.drive 0x0018 := rfl

theorem witness_fault_and_reading_outputs :
    (State.reset.driveRaw 0x7FFC).blockOut.faultOut = 1 ∧ (State.reset.driveRaw 0x7FF8).blockOut.faultOut = 0 := by
  decide

theorem witness_reading_range_ends : decode 0x8003 = .reading 0 ∧ decode 0x7FF8 = .reading 4095 := by decide

theorem witness_preimage_ends : packW16 0 0 0 0 0 ∈ preimages 0 ∧ packW16 1 0xFFF 0 1 1 ∈ preimages 0xFFF := by decide

theorem witness_toggled_bits : decode (0x0018 ^^^ (1#16 <<< 15)) = .reading 3 ∧
    decode (0x0018 ^^^ (1#16 <<< 1)) = .reading 3 ∧ decode (0x0018 ^^^ (1#16 <<< 0)) = .reading 3 := by decide

theorem witness_wire_bits_ends : (wireBits (0x8000 : RawWord))[0]? = some true ∧
    (wireBits (0x0001 : RawWord))[15]? = some true := by decide

theorem witness_undriven_and_driven_wire :
    (RawPort.clean { value := 0xFFFF, driven := 0x8000 }).driven.getLsbD 15 = true ∧
    (RawPort.clean { value := 0xFFFF, driven := 0x8000 }).driven.getLsbD 0 = false := by decide

theorem witness_nothing_pending : (pendingState []).pending = [] := rfl

theorem witness_undrive_pending :
    (pendingState [.undrive { value := 0xFFFF, driven := 0x8000 }]).pending =
      .undrive { value := 0xFFFF, driven := 0x8000 } :: [] := rfl

theorem witness_word_pending :
    (pendingState [.apply (.w16 0x0018)]).pending = .apply (.w16 0x0018) :: [] := rfl

theorem witness_two_words_pending :
    (pendingState [.apply (.w16 0x0004), .apply (.w16 0x0018), .transferHangs]).pending =
      [InputWord.w16 0x0004, .w16 0x0018].map .apply ++ [.transferHangs] := rfl

/-- The state with one reading pending, and all wires of `raw` driven to 1. -/
def otherState : State := ⟨(pendingState [.apply (.w16 0x0018)]).driveRaw 0xFFFF⟩

theorem witness_same_pending_other_state :
    (pendingState [.apply (.w16 0x0018)]).pending = otherState.pending ∧
    pendingState [.apply (.w16 0x0018)] ≠ otherState := by decide

theorem witness_word_pending_twice :
    (pendingState [.apply (.w16 0x0018), .apply (.w16 0x0018)]).pending =
      .apply (.w16 0x0018) :: .apply (.w16 0x0018) :: [] := rfl

theorem witness_second_step_can_be_taken :
    ((afterStep (pendingState [.apply (.w16 0x0018), .apply (.w16 0x0018)])).bind afterStep).map
      (fun t => (t.raw.driven, t.draws)) = some (BitVec.allOnes 16, 2) := by decide

theorem witness_hang_pending :
    step (pendingState [.transferHangs]) = .fault .transferNeverCompletes := rfl

theorem witness_second_caller_pending :
    step (pendingState [.secondCaller]) = .refused .concurrentRead := rfl

theorem witness_placed_word : decodeTableWord 16 0xFFFF = some (.decodeFault 1 0xFFF 1 1) := by decide

theorem witness_line_ends : (lineInput 0 { name := "" } (.decode 65535)).isSome = true ∧
    (lineInput 0 { name := "" } (.decode 65536)).isSome = false ∧
    (lineInput 0 { name := "" } (.readOk 255 255)).isSome = true ∧
    (lineInput 0 { name := "" } (.readOk 256 0)).isSome = false ∧
    (lineInput 0 { name := "" } (.readOk 0 256)).isSome = false := by decide

/-- The state after `READ OK 0x01 0x90` and then `DECODE 0x0004`. -/
def readThenDecode : State :=
  ⟨(((State.reset.driveBus { bits := 0x10190, xferErr := { name := "" } }).driveRaw 0x0004).report
    (.wrapper { bits := 0x10190, xferErr := { name := "" } } (.reading 50))).report (.block 0x0004 .sensorFault)⟩

theorem witness_invariant : readThenDecode.Inv := by
  refine { rawCanonical := by decide, reportsSound := ?_, busIsLastReport := by decide }
  intro r hr
  simp only [readThenDecode, report_reports, driveRaw_reports, driveBus_reports, State.reset, List.nil_append,
    List.mem_append, List.mem_singleton] at hr
  rcases hr with rfl | rfl
  · show _ = _; decide
  · show _ = _; decide

theorem witness_invariant_steps : ∃ t, step readThenDecode = .next t := ⟨_, rfl⟩

theorem witness_last_read_before_a_decode :
    readThenDecode.reports =
      [] ++ .wrapper { bits := 0x10190, xferErr := { name := "" } } (.reading 50) :: [.block 0x0004 .sensorFault] ∧
    (∀ x ∈ ([.block 0x0004 .sensorFault] : List (Report XferError)), x.transfer? = none) ∧ readThenDecode.wrapperOut.isSome = true := by
  decide

theorem witness_failed_and_completed_line_ends :
    (runLine 0xFFFF { name := "" } (.decode 65535) State.reset).isSome = true ∧
    (runLine 0xFFFF { name := "" } (.decode 65536) State.reset).isSome = false ∧
    (runLine 0xFFFF { name := "" } (.readOk 255 255) State.reset).isSome = true ∧
    (runLine 0xFFFF { name := "" } (.readOk 256 0) State.reset).isSome = false := by decide

theorem witness_expect_line_passes_and_fails :
    (runLine 0 { name := "" } (.expect .fault) readThenDecode).isSome = true ∧
    (runLine 0 { name := "" } (.expect (.reading 50)) readThenDecode).isSome = false := by decide

theorem witness_chip_sample_pending :
    (pendingState [.apply (.busres
      (ChipSample.transfer { isOpen := true, mag := 0xFFF, sgn := 0, devId := 0, tri := 1 } { name := "" }))]).pending =
      .apply (.busres { bits := 0x17FFD, xferErr := { name := "" } }) :: [] := by decide

theorem witness_failed_transfer_pending :
    (pendingState [.apply (.busres (failedTransfer { name := "E1" } 0xFFFF))]).pending =
      .apply (.busres { bits := 0x0FFFF, xferErr := { name := "E1" } }) :: [] := by decide

end Sys2Proof.Tests
end

section
/-! SUPPORT. The decoder, the step and the open-type machine, as the statements of scope (00_scope.md) need them:
the fields of an assembled bus word, the round trip from an input word, the step by what is presented. -/

namespace Sys2Proof.Machine

open Sys2Proof.Laws.OpcodeRow (packW16_and_mask packBus_and_mask)

/-! ### The fields of an assembled word -/

theorem decode_packW16 (s : Bit) (m : Mag) (f d t : Bit) :
    decode (packW16 s m f d t) = if f = 1 then .sensorFault else .reading m := by
  rw [decode, faultBit_packW16, magnitude_packW16]

theorem packBus_getLsbD_16 (ok : Bit) (x : BitVec 16) : (packBus ok x).getLsbD 16 = ok.getLsbD 0 := by
  rw [packBus_getLsbD, if_neg (by decide)]

theorem busBytes_packBus (ok : Bit) (x : BitVec 16) : busBytes (packBus ok x) = x :=
  BitVec.extractLsb'_append_eq_right

/-! ### The rows of the operation maps, by the one bit each mask keeps -/

theorem rowDecodeReading_selects (raw : RawWord) : rowDecodeReading.selects raw = true ↔ faultBit raw = 0 := by
  have hmask := packW16_and_mask (dummySign raw) (magnitude raw) (faultBit raw) (deviceId raw) (triState raw)
  rw [packW16_fields] at hmask
  rcases BitVec.eq_zero_or_eq_one (faultBit raw) with h | h <;>
    simp [OpcodeRow.selects, rowDecodeReading, hmask, h]

theorem rowReadXferErr_selects (b : BusBits) : rowReadXferErr.selects b = true ↔ xferOk b = 0 := by
  have hmask := packBus_and_mask (xferOk b) (busBytes b)
  rw [packBus_fields] at hmask
  rcases BitVec.eq_zero_or_eq_one (xferOk b) with h | h <;>
    simp [OpcodeRow.selects, rowReadXferErr, hmask, h]

/-! ### The decoder loses no bit of its word -/

theorem encode_decodeW16 (raw : RawWord) : encode (decodeW16 raw) = .w16 raw := by
  have hfields := packW16_fields raw
  unfold decodeW16
  rcases BitVec.eq_zero_or_eq_one (faultBit raw) with (h : faultBit raw = 0) | (h : faultBit raw = 1)
  · rw [if_pos ((rowDecodeReading_selects raw).2 h), encode, ← h, hfields]
  · rw [if_neg (by rw [rowDecodeReading_selects, h]; decide), encode, ← h, hfields]

theorem encode_decodeBusres (b : BusWord XferError) : encode (decodeBusres b) = .busres b := by
  have hfields := packBus_fields b.bits
  unfold decodeBusres
  rcases BitVec.eq_zero_or_eq_one (xferOk b.bits) with (h : xferOk b.bits = 0) | (h : xferOk b.bits = 1)
  · rw [if_pos ((rowReadXferErr_selects b.bits).2 h), encode, ← h, hfields]
  · rw [if_neg (by rw [rowReadXferErr_selects, h]; decide), encode, busRx0_append_busRx1, ← h, hfields]

theorem encode_decodeInput (x : InputWord XferError) : encode (decodeInput x) = x := by
  cases x with
  | w16 raw => exact encode_decodeW16 raw
  | busres b => exact encode_decodeBusres b

/-! ### An instruction is the evaluation of its own input word -/

theorem exec_eq_evaluate_encode (i : Instr) (s : State) : exec i s = .next ⟨evaluate (encode i) s.toStateOf⟩ := by
  cases i with
  | decodeReading sgn m d t =>
    rw [exec_decodeReading, encode, evaluate_w16, decode_packW16, if_neg (by decide)]
  | decodeFault sgn m d t =>
    rw [exec_decodeFault, encode, evaluate_w16, decode_packW16, if_pos rfl]
  | readXferErr x e =>
    rw [exec_readXferErr, encode, evaluate_failed (by rw [packBus_getLsbD_16]; decide)]
  | readOk rx0 rx1 side =>
    rw [exec_readOk, encode, evaluate_completed (by rw [packBus_getLsbD_16]; decide), busBytes_packBus, assemble]

theorem exec_decodeInput (x : InputWord XferError) (s : State) :
    exec (decodeInput x) s = .next ⟨evaluate x s.toStateOf⟩ := by
  rw [exec_eq_evaluate_encode, encode_decodeInput]

/-! ### The step, by what is presented -/

section
variable {s : State} {rest : List (Stimulus XferError)}

theorem step_nil (h : s.pending = []) : step s = .next ⟨s.tick⟩ := by
  unfold step; rw [fetch_nil h]

theorem step_apply {x : InputWord XferError} (h : s.pending = .apply x :: rest) :
    step s = exec (decodeInput x) ⟨s.tick.present rest⟩ := by
  unfold step; rw [fetch_apply h]

theorem step_undrive {p : RawPort} (h : s.pending = .undrive p :: rest) :
    step s = .next ⟨(s.tick.present rest).undriveRaw p⟩ := by
  unfold step; rw [fetch_undrive h]

theorem step_transferHangs (h : s.pending = .transferHangs :: rest) : step s = .fault .transferNeverCompletes := by
  unfold step; rw [fetch_transferHangs h]

theorem step_secondCaller (h : s.pending = .secondCaller :: rest) : step s = .refused .concurrentRead := by
  unfold step; rw [fetch_secondCaller h]

end

/-! ### The wrapper's wires, by `xfer_ok` -/

section
variable {ε : Type} {b : BusWord ε}

theorem wrapperWires_of_failed (idle : ε) (h : b.bits.getLsbD 16 = false) :
    wrapperWires idle b = { xerrOut := 1, faultOut := 0, tempQ2Out := 0, errOut := b.xferErr } := by
  unfold wrapperWires; rw [if_pos ((xferOk_eq_zero b.bits).2 h)]

theorem wrapperWires_of_completed (idle : ε) (h : b.bits.getLsbD 16 = true) :
    wrapperWires idle b =
      { xerrOut := 0, faultOut := (blockWires (busBytes b.bits)).faultOut,
        tempQ2Out := (blockWires (busBytes b.bits)).tempQ2Out, errOut := idle } := by
  unfold wrapperWires; rw [if_neg (by rw [xferOk_eq_zero, h]; decide), assemble, busRx0_append_busRx1]

end

end Sys2Proof.Machine
end

section
/-! SUPPORT. Renaming transport errors passes through every operation of the open-type machine (00_scope.md R7). -/

namespace Sys2Proof.Machine

/-- Rename the side value of an input word; a W16 word has none. -/
def renameInput {α β : Type} (f : α → β) : InputWord α → InputWord β
  | .w16 raw  => .w16 raw
  | .busres b => .busres (renameBus f b)

variable {α β : Type} (f : α → β)

theorem renameStimulus_apply (x : InputWord α) : renameStimulus f (.apply x) = .apply (renameInput f x) := by
  cases x <;> rfl

@[simp] theorem mapErr_toRead (r : Result) : (r.toRead : ReadResult α).mapErr f = r.toRead := by
  cases r <;> rfl

/-! ### The updates of the state -/

@[simp] theorem mapErr_tick (s : StateOf α) : s.tick.mapErr f = (s.mapErr f).tick := rfl

@[simp] theorem mapErr_present (xs : List (Stimulus α)) (s : StateOf α) :
    (s.present xs).mapErr f = (s.mapErr f).present (xs.map (renameStimulus f)) := rfl

@[simp] theorem mapErr_driveRaw (raw : RawWord) (s : StateOf α) :
    (s.driveRaw raw).mapErr f = (s.mapErr f).driveRaw raw := rfl

@[simp] theorem mapErr_undriveRaw (p : RawPort) (s : StateOf α) :
    (s.undriveRaw p).mapErr f = (s.mapErr f).undriveRaw p := rfl

@[simp] theorem mapErr_driveBus (b : BusWord α) (s : StateOf α) :
    (s.driveBus b).mapErr f = (s.mapErr f).driveBus (renameBus f b) := rfl

@[simp] theorem mapErr_report (r : Report α) (s : StateOf α) :
    (s.report r).mapErr f = (s.mapErr f).report (r.mapErr f) := by
  simp [StateOf.mapErr, StateOf.report]

theorem mapErr_pending_cons {s : StateOf α} {x : Stimulus α} {rest : List (Stimulus α)}
    (h : s.pending = x :: rest) :
    (s.mapErr f).pending = renameStimulus f x :: rest.map (renameStimulus f) := by
  simp [StateOf.mapErr, h]

/-! ### One evaluation, one step, and the wires -/

theorem mapErr_evaluate (x : InputWord α) (s : StateOf α) :
    (evaluate x s).mapErr f = evaluate (renameInput f x) (s.mapErr f) := by
  cases x with
  | w16 raw => simp [renameInput, evaluate_w16, Report.mapErr]
  | busres b =>
    rw [renameInput]
    cases h : b.bits.getLsbD 16 with
    | false =>
      rw [evaluate_failed h, evaluate_failed (b := renameBus f b) h]
      simp [Report.mapErr, ReadResult.mapErr, renameBus]
    | true =>
      rw [evaluate_completed h, evaluate_completed (b := renameBus f b) h]
      simp [Report.mapErr, renameBus]

theorem stepOf_mapErr (s : StateOf α) : stepOf (s.mapErr f) = mapOutcome (StateOf.mapErr f) (stepOf s) := by
  match h : s.pending with
  | [] =>
    rw [stepOf_nil h, stepOf_nil (s := s.mapErr f) (by simp [StateOf.mapErr, h])]
    simp [mapOutcome]
  | .apply x :: rest =>
    have hmap := mapErr_pending_cons f h
    rw [renameStimulus_apply] at hmap
    rw [stepOf_apply h, stepOf_apply hmap]
    simp [mapOutcome, mapErr_evaluate]
  | .undrive p :: rest =>
    rw [stepOf_undrive h, stepOf_undrive (mapErr_pending_cons f h)]
    simp [mapOutcome]
  | .transferHangs :: rest =>
    rw [stepOf_transferHangs h, stepOf_transferHangs (mapErr_pending_cons f h), mapOutcome]
  | .secondCaller :: rest =>
    rw [stepOf_secondCaller h, stepOf_secondCaller (mapErr_pending_cons f h), mapOutcome]

theorem wrapperWires_renameBus (idle : α) (b : BusWord α) :
    wrapperWires (f idle) (renameBus f b) = (wrapperWires idle b).mapErr f := by
  cases h : b.bits.getLsbD 16 with
  | false =>
    rw [wrapperWires_of_failed _ h, wrapperWires_of_failed (b := renameBus f b) _ h]
    simp [WrapperOut.mapErr, renameBus]
  | true =>
    rw [wrapperWires_of_completed _ h, wrapperWires_of_completed (b := renameBus f b) _ h]
    simp [WrapperOut.mapErr, renameBus]

end Sys2Proof.Machine
end

section
/-! The statements of scope (00_scope.md): the open type of transport error, and the step as one evaluation. -/

namespace Sys2Proof.Machine

/-- Settles O45: renaming passes through one evaluation, by the bit `xfer_ok`, and so through the step, by what is
presented. -/
theorem openTypeStepCommutesWithRenaming : Obligations.OpenTypeStepCommutesWithRenaming :=
  ⟨fun _ _ f s => stepOf_mapErr f s, fun _ _ f idle b => wrapperWires_renameBus f idle b⟩

/-- Settles O46: an instruction is the evaluation of its encoding, and the encoding of a decoded word is that word. -/
theorem stepIsTheOpenTypeStep : Obligations.StepIsTheOpenTypeStep := by
  intro s
  match h : s.pending with
  | [] => rw [step_nil h, stepOf_nil h, mapOutcome]
  | .apply x :: rest => rw [step_apply h, exec_decodeInput, stepOf_apply h, mapOutcome]
  | .undrive p :: rest => rw [step_undrive h, stepOf_undrive h, mapOutcome]
  | .transferHangs :: rest => rw [step_transferHangs h, stepOf_transferHangs h, mapOutcome]
  | .secondCaller :: rest => rw [step_secondCaller h, stepOf_secondCaller h, mapOutcome]

/-- Settles O31: the fetch of a presented word is its decoding, in the state with the word taken. -/
theorem stepRunsTheDecodedInstruction : Obligations.StepRunsTheDecodedInstruction :=
  fun _ _ _ h => step_apply h

end Sys2Proof.Machine
end

section
/-! SUPPORT. The block's output pair: the wire form of one result, read back by the consumer, and its fault bit
(10_state.md R22, R23). -/

namespace Sys2Proof.Machine

/-! ### The wire form of a result (30_encoding.md R43) -/

/-- Reading the pair undoes the wire form, so two results never share one. -/
@[simp] theorem result_wires (r : Result) : r.wires.result = r := by
  cases r with
  | reading q => exact if_neg (by decide : ¬(0 : Bit) = 1)
  | sensorFault => exact if_pos rfl

theorem wires_injective : Function.Injective Result.wires :=
  Function.LeftInverse.injective result_wires

/-- Under a fault the wire form carries the number 0. -/
theorem wires_tempQ2Out_of_fault {r : Result} (h : r.wires.faultOut = 1) : r.wires.tempQ2Out = 0 := by
  cases r with
  | reading q => exact absurd h (by decide : ¬(0 : Bit) = 1)
  | sensorFault => rfl

/-! ### The output multiplexer (41_decode.md R50) -/

/-- The multiplexer drives the wire form of `decode`: both branch on the fault bit alone. -/
theorem blockWires_eq_wires_decode (raw : RawWord) : blockWires raw = (decode raw).wires := by
  rcases BitVec.eq_zero_or_eq_one (faultBit raw) with h | h <;> simp [blockWires, decode, Result.wires, h]

theorem faultBit_eq_zero (raw : RawWord) : faultBit raw = 0 ↔ raw.getLsbD 2 = false := by
  rw [← faultBit_getLsbD]
  generalize faultBit raw = f
  revert f; decide

/-! ### The outputs of a state -/

section
variable {ε : Type}

theorem blockOut_eq_wires_decode (s : StateOf ε) : s.blockOut = (decode s.rawNow).wires :=
  blockWires_eq_wires_decode s.rawNow

theorem blockOut_faultOut (s : StateOf ε) : s.blockOut.faultOut = faultBit s.rawNow := rfl

theorem blockOut_faultOut_eq_one (s : StateOf ε) : s.blockOut.faultOut = 1 ↔ s.rawNow.getLsbD 2 = true := by
  rw [blockOut_faultOut, faultBit_eq_one]

theorem blockOut_faultOut_eq_zero (s : StateOf ε) : s.blockOut.faultOut = 0 ↔ s.rawNow.getLsbD 2 = false := by
  rw [blockOut_faultOut, faultBit_eq_zero]

/-- After a DECODE line `raw` carries its word, whatever it carried before. -/
@[simp] theorem rawNow_evaluate_w16 (raw : RawWord) (s : StateOf ε) : (evaluate (.w16 raw) s).rawNow = raw :=
  rawNow_of_driven (by rw [evaluate_w16, report_raw, driveRaw_raw])

end

end Sys2Proof.Machine
end

section
/-! The statements of the state (10_state.md): the output pair and the fault bit, at every moment. -/

namespace Sys2Proof.Machine

/-- Settles O13: the pair is the wire form of `decode` of the word on `raw`, and the wire form is injective. -/
theorem outputPairAlwaysValid : Obligations.OutputPairAlwaysValid := by
  intro s
  rw [blockOut_eq_wires_decode]
  refine ⟨⟨decode s.rawNow, rfl, fun _ h => wires_injective h⟩, ?_⟩
  exact fun ⟨hfault, htemp⟩ => htemp (wires_tempQ2Out_of_fault hfault)

/-- Settles O14: `fault_out` is the fault bit of the word on `raw`, and each DECODE line drives that word anew. -/
theorem faultOutFollowsInput : Obligations.FaultOutFollowsInput := by
  refine ⟨fun s => ⟨blockOut_faultOut_eq_one s.toStateOf, blockOut_faultOut_eq_zero s.toStateOf⟩, ?_⟩
  intro f r s hf hr
  refine ⟨_, _, exec_decodeInput (.w16 f) s, exec_decodeInput (.w16 r) _, ?_, ?_⟩
  · rwa [blockOut_faultOut_eq_one, rawNow_evaluate_w16]
  · rwa [blockOut_faultOut_eq_zero, rawNow_evaluate_w16]

end Sys2Proof.Machine
end

section
/-! SUPPORT. Order of bits and bytes, the invariant through one evaluation, and what a step shows as a function of what
is presented (20_memory.md R24, R25, R31). -/

namespace Sys2Proof.Machine

/-! ### The bits on the wire (20_memory.md R24) -/

section
variable {v w : Nat}

theorem wireBits_length (x : BitVec w) : (wireBits x).length = w := by
  simp [wireBits]

theorem wireBits_getElem? (x : BitVec w) {k : Nat} (h : k < w) :
    (wireBits x)[k]? = some (x.getLsbD (w - 1 - k)) := by
  simp [wireBits, BitVec.getMsbD, h]

/-- The bits of a concatenation travel as those of its high part and then those of its low part. -/
theorem wireBits_append (x : BitVec v) (y : BitVec w) : wireBits (x ++ y) = wireBits x ++ wireBits y := by
  have hhigh : ∀ k ∈ List.range v, (x ++ y).getMsbD k = x.getMsbD k := fun k hk => by
    rw [BitVec.getMsbD_append, if_neg (Nat.not_le.2 (List.mem_range.1 hk))]
  have hlow : ∀ k ∈ List.range w, (x ++ y).getMsbD (v + k) = y.getMsbD k := fun k _ => by
    rw [BitVec.getMsbD_append, if_pos (Nat.le_add_right v k), Nat.add_sub_cancel_left]
  unfold wireBits
  rw [List.range_add, List.map_append, List.map_map]
  exact congrArg₂ (· ++ ·) (List.map_congr_left hhigh) (List.map_congr_left hlow)

end

/-! ### What one evaluation leaves in each field -/

section
variable {ε : Type}

/-- A DECODE line leaves the wrapper's input ports as they are and a READ line shows its transfer on them; the `raw` port
is left alone (a failed transfer) or driven on every wire. The reports are evaluate_reports. -/
theorem evaluate_frame (x : InputWord ε) (s : StateOf ε) :
    (evaluate x s).pending = s.pending ∧ (evaluate x s).bus = (reportOf x).transfer?.or s.bus ∧
      ((evaluate x s).raw = s.raw ∨ ∃ raw, (evaluate x s).raw = RawPort.drive raw) := by
  cases x with
  | w16 raw => exact ⟨rfl, rfl, .inr ⟨raw, rfl⟩⟩
  | busres b =>
    cases h : b.bits.getLsbD 16 with
    | false => rw [evaluate_failed h]; exact ⟨rfl, rfl, .inl rfl⟩
    | true => rw [evaluate_completed h]; exact ⟨rfl, rfl, .inr ⟨_, rfl⟩⟩

/-! ### The invariant -/

theorem reportOf_sound (x : InputWord ε) : (reportOf x).Sound := by
  cases x with
  | w16 raw => rfl
  | busres b => rfl

/-- The last transfer of a longer list of reports is that of its last report, if it is of one. -/
theorem lastTransfer_of_reports {s t : StateOf ε} {r : Report ε} (h : t.reports = s.reports ++ [r]) :
    t.lastTransfer = r.transfer?.or s.lastTransfer := by
  unfold StateOf.lastTransfer
  rw [h, List.filterMap_append, List.getLast?_append]
  cases hr : r.transfer? <;> simp [hr]

/-- The invariant reads the port, the bus and the reports alone, so it passes to a state with the same bus and reports
whose port is in its one form. -/
theorem StateOf.Inv.of_frame {s t : StateOf ε} (hs : s.Inv) (hraw : t.raw.canonical = true) (hbus : t.bus = s.bus)
    (hreports : t.reports = s.reports) : t.Inv where
  rawCanonical := hraw
  reportsSound := hreports ▸ hs.reportsSound
  busIsLastReport := by rw [hbus, hs.busIsLastReport, StateOf.lastTransfer, StateOf.lastTransfer, hreports]

/-- The new report is sound whatever the state, and the bus follows it exactly as the last transfer does. -/
theorem evaluate_keeps_inv {s : StateOf ε} (hs : s.Inv) (x : InputWord ε) : (evaluate x s).Inv := by
  obtain ⟨-, hbus, hraw⟩ := evaluate_frame x s
  refine ⟨?_, fun r hr => ?_, ?_⟩
  · obtain h | ⟨raw, h⟩ := hraw
    · rw [h]; exact hs.rawCanonical
    · rw [h]; exact drive_canonical raw
  · rw [evaluate_reports, List.mem_append, List.mem_singleton] at hr
    obtain hold | rfl := hr
    · exact hs.reportsSound r hold
    · exact reportOf_sound x
  · rw [hbus, hs.busIsLastReport, lastTransfer_of_reports (evaluate_reports x s)]

end

/-! ### Two machines that are presented the same -/

/-- They add the same reports and stay presented the same, or they stop alike. -/
theorem step_of_same_pending {s t : State} (h : s.pending = t.pending) :
    (∃ s' t' new, step s = .next s' ∧ step t = .next t' ∧ s'.pending = t'.pending ∧
      s'.reports = s.reports ++ new ∧ t'.reports = t.reports ++ new) ∨
    (∃ r, step s = .fault r ∧ step t = .fault r) ∨ (∃ r, step s = .refused r ∧ step t = .refused r) := by
  match ht : t.pending with
  | [] =>
    exact .inl ⟨_, _, [], step_nil (h.trans ht), step_nil ht, h, (List.append_nil _).symm, (List.append_nil _).symm⟩
  | .apply x :: rest =>
    refine .inl ⟨_, _, [reportOf x], (step_apply (h.trans ht)).trans (exec_decodeInput x _),
      (step_apply ht).trans (exec_decodeInput x _), ?_, evaluate_reports x _, evaluate_reports x _⟩
    rw [(evaluate_frame x _).1, (evaluate_frame x _).1, present_pending, present_pending]
  | .undrive p :: rest =>
    exact .inl ⟨_, _, [], step_undrive (h.trans ht), step_undrive ht, rfl, (List.append_nil _).symm,
      (List.append_nil _).symm⟩
  | .transferHangs :: rest =>
    exact .inr (.inl ⟨_, step_transferHangs (h.trans ht), step_transferHangs ht⟩)
  | .secondCaller :: rest =>
    exact .inr (.inr ⟨_, step_secondCaller (h.trans ht), step_secondCaller ht⟩)

/-- The induction over a run keeps the reports that each machine held at its start (`old`, `old'`) apart from those that
both have added since (`new`). -/
theorem run_of_same_pending (n : Nat) {s t : State} {old old' new : List (Report XferError)}
    (h : s.pending = t.pending) (hs : s.reports = old ++ new) (ht : t.reports = old' ++ new) :
    seenOf old.length (Host.Core.run Sys2Proof.core n s) = seenOf old'.length (Host.Core.run Sys2Proof.core n t) := by
  induction n generalizing s t new with
  | zero =>
    show Seen.added (s.reports.drop old.length) = Seen.added (t.reports.drop old'.length)
    rw [hs, ht, List.drop_left, List.drop_left]
  | succ n ih =>
    obtain ⟨s', t', more, hstep, hstep', hpending, hreports, hreports'⟩ | ⟨r, hstep, hstep'⟩ | ⟨r, hstep, hstep'⟩ :=
      step_of_same_pending h
    · rw [run_next n hstep, run_next n hstep']
      refine ih (new := new ++ more) hpending ?_ ?_
      · rw [hreports, hs, List.append_assoc]
      · rw [hreports', ht, List.append_assoc]
    · rw [run_fault n hstep, run_fault n hstep']; rfl
    · rw [run_refused n hstep, run_refused n hstep']; rfl

end Sys2Proof.Machine
end

section
/-! The statements of memory (20_memory.md): the order of bits and bytes, the invariant, and no hidden state. -/

namespace Sys2Proof.Machine

/-- Settles O39: a moment without a sample touches at most the port, and an evaluation keeps the invariant whatever its
input word. -/
theorem stepKeepsInvariant : Obligations.StepKeepsInvariant := by
  intro s s' hs hstep
  obtain ⟨-, rfl⟩ | ⟨p, rest, -, rfl⟩ | ⟨x, rest, -, hexec⟩ := step_cases hstep
  · exact hs.of_frame hs.rawCanonical rfl rfl
  · exact hs.of_frame (clean_canonical p) rfl rfl
  · rw [exec_decodeInput] at hexec
    obtain rfl := Host.Outcome.next.inj hexec
    have htaken : (s.tick.present rest).Inv := hs.of_frame hs.rawCanonical rfl rfl
    exact evaluate_keeps_inv htaken x

/-- Settles O25: the wire order is by the most significant bit at every width, so it passes through the byte assembly. -/
theorem wireBitOrderIsMsbFirst : Obligations.WireBitOrderIsMsbFirst :=
  ⟨fun raw _ hk => wireBits_getElem? raw hk, wireBits_length, wireBits_append⟩

/-- Settles O42, by induction on the number of steps, from two machines that have not yet added a report. -/
theorem noStateReachesTheResults : Obligations.NoStateReachesTheResults :=
  fun n _ _ h => run_of_same_pending n h (List.append_nil _).symm (List.append_nil _).symm

/-- Settles O24: the assembled word has the first byte above the second, and `READ_OK` drives it on every wire. -/
theorem byteOrderIsBigEndian : Obligations.ByteOrderIsBigEndian := by
  intro rx0 rx1 side s
  refine ⟨assemble_toNat rx0 rx1, BitVec.extractLsb'_append_eq_left, BitVec.extractLsb'_append_eq_right, ?_⟩
  exact ⟨_, exec_readOk rx0 rx1 side s, rawNow_of_driven rfl⟩

end Sys2Proof.Machine
end

section
/-! SUPPORT. The decoder from the side of the encoder, and what toggling one bit of a word leaves unchanged
(30_encoding.md R37 to R44). -/

namespace Sys2Proof.Machine

open Sys2Proof.Laws.OpcodeRow (packW16_and_mask packBus_and_mask)

/-! ### The fields of an assembled word that no rule reads, and the bytes of a bus word -/

theorem dummySign_packW16 (s : Bit) (m : Mag) (f d t : Bit) : dummySign (packW16 s m f d t) = s := by
  refine BitVec.eq_of_getLsbD_eq fun i hi => ?_
  obtain rfl : i = 0 := by omega
  rw [dummySign, BitVec.getLsbD_extractLsb', packW16_getLsbD]
  simp

theorem deviceId_packW16 (s : Bit) (m : Mag) (f d t : Bit) : deviceId (packW16 s m f d t) = d := by
  refine BitVec.eq_of_getLsbD_eq fun i hi => ?_
  obtain rfl : i = 0 := by omega
  rw [deviceId, BitVec.getLsbD_extractLsb', packW16_getLsbD]
  simp

theorem triState_packW16 (s : Bit) (m : Mag) (f d t : Bit) : triState (packW16 s m f d t) = t :=
  BitVec.extractLsb'_append_eq_right

theorem xferOk_packBus (ok : Bit) (x : BitVec 16) : xferOk (packBus ok x) = ok :=
  BitVec.extractLsb'_append_eq_left

theorem busRx0_packBus (ok : Bit) (rx0 rx1 : Byte) : busRx0 (packBus ok (rx0 ++ rx1)) = rx0 :=
  (BitVec.extractLsb'_append_eq_of_add_le (by decide)).trans BitVec.extractLsb'_append_eq_left

theorem busRx1_packBus (ok : Bit) (rx0 rx1 : Byte) : busRx1 (packBus ok (rx0 ++ rx1)) = rx1 :=
  (BitVec.extractLsb'_append_eq_of_add_le (by decide)).trans BitVec.extractLsb'_append_eq_right

theorem packBus_toNat (ok : Bit) (x : BitVec 16) : (packBus ok x).toNat = ok.toNat * 65536 + x.toNat := by
  unfold packBus
  rw [BitVec.toNat_append, ← Nat.shiftLeft_add_eq_or_of_lt x.isLt, Nat.shiftLeft_eq]

/-! ### The decoder, by the bit that each operation map looks at -/

section
variable {raw : RawWord} {b : BusWord XferError}

theorem decodeInput_of_clear (h : faultBit raw = 0) :
    decodeInput (.w16 raw) = .decodeReading (dummySign raw) (magnitude raw) (deviceId raw) (triState raw) :=
  if_pos ((rowDecodeReading_selects raw).2 h)

theorem decodeInput_of_set (h : faultBit raw = 1) :
    decodeInput (.w16 raw) = .decodeFault (dummySign raw) (magnitude raw) (deviceId raw) (triState raw) :=
  if_neg (by rw [rowDecodeReading_selects, h]; decide)

theorem decodeInput_of_failed (h : xferOk b.bits = 0) :
    decodeInput (.busres b) = .readXferErr (busBytes b.bits) b.xferErr :=
  if_pos ((rowReadXferErr_selects b.bits).2 h)

theorem decodeInput_of_completed (h : xferOk b.bits = 1) :
    decodeInput (.busres b) = .readOk (busRx0 b.bits) (busRx1 b.bits) b.xferErr :=
  if_neg (by rw [rowReadXferErr_selects, h]; decide)

end

/-- Each field stands where the decoder looks for it, and the field that tells the operations of a format apart is the
one that the encoder sets. -/
theorem decodeInput_encode (i : Instr) : decodeInput (encode i) = i := by
  cases i with
  | decodeReading s m d t =>
    rw [encode, decodeInput_of_clear (faultBit_packW16 s m 0 d t), dummySign_packW16, magnitude_packW16,
      deviceId_packW16, triState_packW16]
  | decodeFault s m d t =>
    rw [encode, decodeInput_of_set (faultBit_packW16 s m 1 d t), dummySign_packW16, magnitude_packW16,
      deviceId_packW16, triState_packW16]
  | readXferErr x e =>
    rw [encode, decodeInput_of_failed (b := ⟨packBus 0 x, e⟩) (xferOk_packBus 0 x), busBytes_packBus]
  | readOk rx0 rx1 side =>
    rw [encode, decodeInput_of_completed (b := ⟨packBus 1 (rx0 ++ rx1), side⟩) (xferOk_packBus 1 (rx0 ++ rx1)),
      busRx0_packBus, busRx1_packBus]

/-! ### The rows of the operation maps, by the bit of the word -/

theorem rowDecodeFault_selects (raw : RawWord) : rowDecodeFault.selects raw = true ↔ faultBit raw = 1 := by
  have hmask := packW16_and_mask (dummySign raw) (magnitude raw) (faultBit raw) (deviceId raw) (triState raw)
  rw [packW16_fields] at hmask
  rcases BitVec.eq_zero_or_eq_one (faultBit raw) with h | h <;>
    simp [OpcodeRow.selects, rowDecodeFault, hmask, h]

theorem rowReadOk_selects (b : BusBits) : rowReadOk.selects b = true ↔ xferOk b = 1 := by
  have hmask := packBus_and_mask (xferOk b) (busBytes b)
  rw [packBus_fields] at hmask
  rcases BitVec.eq_zero_or_eq_one (xferOk b) with h | h <;>
    simp [OpcodeRow.selects, rowReadOk, hmask, h]

theorem xferOk_eq_one (b : BusBits) : xferOk b = 1 ↔ b.getLsbD 16 = true := by
  rw [← Bool.not_eq_false, ← xferOk_eq_zero]
  generalize xferOk b = f
  revert f; decide

theorem decodeInput_eq_decodeReading_iff (raw : RawWord) :
    (∃ s m d t, decodeInput (.w16 raw) = .decodeReading s m d t) ↔ faultBit raw = 0 := by
  rcases BitVec.eq_zero_or_eq_one (faultBit raw) with h | h
  · simp [decodeInput_of_clear h, h]
  · simp [decodeInput_of_set h, h]

theorem decodeInput_eq_decodeFault_iff (raw : RawWord) :
    (∃ s m d t, decodeInput (.w16 raw) = .decodeFault s m d t) ↔ faultBit raw = 1 := by
  rcases BitVec.eq_zero_or_eq_one (faultBit raw) with h | h
  · simp [decodeInput_of_clear h, h]
  · simp [decodeInput_of_set h, h]

theorem decodeInput_eq_readXferErr_iff (b : BusWord XferError) :
    (∃ x e, decodeInput (.busres b) = .readXferErr x e) ↔ xferOk b.bits = 0 := by
  rcases BitVec.eq_zero_or_eq_one (xferOk b.bits) with h | h
  · simp [decodeInput_of_failed h, h]
  · simp [decodeInput_of_completed h, h]

theorem decodeInput_eq_readOk_iff (b : BusWord XferError) :
    (∃ rx0 rx1 e, decodeInput (.busres b) = .readOk rx0 rx1 e) ↔ xferOk b.bits = 1 := by
  rcases BitVec.eq_zero_or_eq_one (xferOk b.bits) with h | h
  · simp [decodeInput_of_failed h, h]
  · simp [decodeInput_of_completed h, h]

/-! ### Fields that agree, and words that differ in one bit (30_encoding.md R38 to R40) -/

theorem magnitude_eq_extractLsb' (raw : RawWord) : magnitude raw = raw.extractLsb' 3 12 := by
  refine BitVec.eq_of_getLsbD_eq fun i hi => ?_
  rw [magnitude_getLsbD, BitVec.getLsbD_extractLsb', Nat.add_comm]

theorem faultBit_eq_extractLsb' (raw : RawWord) : faultBit raw = raw.extractLsb' 2 1 := by
  refine BitVec.eq_of_getLsbD_eq fun i hi => ?_
  obtain rfl : i = 0 := by omega
  rw [faultBit_getLsbD, BitVec.getLsbD_extractLsb']
  simp

theorem getLsbD_toggle_of_ne (raw : RawWord) {i j : Nat} (h : i ≠ j) :
    (raw ^^^ (1#16 <<< i)).getLsbD j = raw.getLsbD j := by
  rw [← BitVec.twoPow_eq, BitVec.getLsbD_xor, BitVec.getLsbD_twoPow, decide_eq_false h, Bool.and_false,
    Bool.xor_false]

/-- The magnitude reads the bits 14 to 3 alone. -/
theorem magnitude_toggle (raw : RawWord) {i : Nat} (h : i < 3 ∨ 15 ≤ i) :
    magnitude (raw ^^^ (1#16 <<< i)) = magnitude raw := by
  refine BitVec.eq_of_getLsbD_eq fun j hj => ?_
  rw [magnitude_getLsbD, magnitude_getLsbD, getLsbD_toggle_of_ne raw (by omega)]

/-- The fault bit reads bit 2 alone. -/
theorem faultBit_toggle (raw : RawWord) {i : Nat} (h : i ≠ 2) : faultBit (raw ^^^ (1#16 <<< i)) = faultBit raw := by
  refine BitVec.eq_of_getLsbD_eq fun j hj => ?_
  obtain rfl : j = 0 := by omega
  rw [faultBit_getLsbD, faultBit_getLsbD, getLsbD_toggle_of_ne raw h]

theorem decode_toggle_ignored (raw : RawWord) {i : Nat} (h : i = 15 ∨ i = 1 ∨ i = 0) :
    decode (raw ^^^ (1#16 <<< i)) = decode raw := by
  rw [decode, decode, faultBit_toggle raw (by omega), magnitude_toggle raw (by omega)]

/-! ### What a DECODE operation leaves -/

/-- The frame of both DECODE operations, once: the instruction is the evaluation of its word, which drives `raw` and
adds one report. -/
theorem exec_of_encode_w16 {i : Instr} {raw : RawWord} (h : encode i = .w16 raw) (s : State) :
    ∃ u, exec i s = .next u ∧ u.raw = RawPort.drive raw ∧ u.blockOut = (decode raw).wires ∧
      u.reports = s.reports ++ [.block raw (decode raw)] ∧
      u.bus = s.bus ∧ u.wrapperOut = s.wrapperOut ∧ u.pending = s.pending ∧ u.draws = s.draws := by
  have hexec : exec i s = .next ⟨evaluate (.w16 raw) s.toStateOf⟩ := by rw [exec_eq_evaluate_encode, h]
  have hout : (evaluate (.w16 raw) s.toStateOf).blockOut = (decode raw).wires := by
    rw [blockOut_eq_wires_decode, rawNow_evaluate_w16]
  exact ⟨_, hexec, rfl, hout, rfl, rfl, rfl, rfl, rfl⟩

end Sys2Proof.Machine
end

section
/-! SUPPORT. The stimulus lines (30_encoding.md R45) and the words that are placed from outside: the input
word of each, and the one evaluation that it runs. -/

namespace Sys2Proof.Machine

variable (x : BitVec 16) (side : XferError)

/-! ### The input word of a line -/

theorem lineInput_of_not_wellFormed {l : Line} (h : l.wellFormed = false) : lineInput x side l = none := by
  unfold lineInput; rw [if_neg (by rw [h]; decide)]

theorem lineInput_decode {w : Nat} (h : w < 65536) :
    lineInput x side (.decode w) = some (.w16 (BitVec.ofNat 16 w)) :=
  if_pos (decide_eq_true h)

theorem lineInput_decode_of_wide {w : Nat} (h : 65536 ≤ w) : lineInput x side (.decode w) = none :=
  lineInput_of_not_wellFormed x side (decide_eq_false (Nat.not_lt.2 h))

theorem lineInput_readOk {b0 b1 : Nat} (h0 : b0 < 256) (h1 : b1 < 256) :
    lineInput x side (.readOk b0 b1) =
      some (.busres { bits := packBus 1 (assemble (BitVec.ofNat 8 b0) (BitVec.ofNat 8 b1)), xferErr := side }) :=
  if_pos (by simp [Line.wellFormed, h0, h1])

theorem lineInput_readOk_of_wide {b0 b1 : Nat} (h : 256 ≤ b0 ∨ 256 ≤ b1) :
    lineInput x side (.readOk b0 b1) = none :=
  lineInput_of_not_wellFormed x side (by simpa [Line.wellFormed, imp_iff_not_or] using h)

theorem lineInput_readErr (e : XferError) :
    lineInput x side (.readErr e) = some (.busres { bits := packBus 0 x, xferErr := e }) := rfl

theorem lineInput_expect (a : Expectation) : lineInput x side (.expect a) = none :=
  ite_self none

/-- The two bytes of a line, assembled, are one number (20_memory.md R25). -/
theorem assemble_ofNat (b0 : Nat) {b1 : Nat} (h1 : b1 < 256) :
    assemble (BitVec.ofNat 8 b0) (BitVec.ofNat 8 b1) = BitVec.ofNat 16 (b0 * 256 + b1) := by
  refine BitVec.eq_of_toNat_eq ?_
  rw [assemble_toNat, BitVec.toNat_ofNat, BitVec.toNat_ofNat, BitVec.toNat_ofNat]
  omega

/-! ### The run of a line -/

section
variable {x side} {l : Line} {s : State}

/-- A line with an input word is presented before all that is pending, and the one step takes it from there. -/
theorem runLine_of_lineInput {w : InputWord XferError} (h : lineInput x side l = some w) :
    runLine x side l s = some ⟨evaluate w s.toStateOf.tick⟩ := by
  have hstep : step ⟨s.present (.apply w :: s.pending)⟩ = .next ⟨evaluate w s.toStateOf.tick⟩ := by
    rw [step_apply (x := w) (rest := s.pending) rfl, exec_decodeInput]; rfl
  cases l with
  | expect a => rw [lineInput_expect] at h; cases h
  | _ => simp only [runLine, h, hstep]

theorem runLine_of_no_lineInput (hl : ∀ a, l ≠ .expect a) (h : lineInput x side l = none) :
    runLine x side l s = none := by
  cases l with
  | expect a => exact absurd rfl (hl a)
  | _ => simp only [runLine, h]

/-- What a line with an input word leaves: the report of that word, and what is pending as it was. -/
theorem runLine_reports {w : InputWord XferError} (h : lineInput x side l = some w) :
    ∃ t, runLine x side l s = some t ∧ t.reports = s.reports ++ [reportOf w] ∧ t.pending = s.pending :=
  ⟨_, runLine_of_lineInput h, evaluate_reports w _, (evaluate_frame w _).1⟩

theorem runLine_expect (a : Expectation) {t : State} :
    runLine x side (.expect a) s = some t ↔ t = s ∧ expectationMet a s.lastOutcome = true := by
  show (if expectationMet a s.lastOutcome then some s else none) = some t ↔ _
  rw [Option.ite_none_right_eq_some, Option.some_inj, and_comm, eq_comm]

end

/-! ### The outcome of each line's word -/

theorem reportOf_completed_outcome (raw : RawWord) :
    (reportOf (.busres { bits := packBus 1 raw, xferErr := side })).outcome = (decode raw).toRead := by
  have hcompleted : (packBus 1 raw).getLsbD 16 = true := by rw [packBus_getLsbD_16]; decide
  rw [reportOf, Report.outcome, busResult_of_completed (b := ⟨packBus 1 raw, side⟩) hcompleted, readResult,
    assemble, busRx0_append_busRx1, busBytes_packBus]

theorem reportOf_failed_outcome (e : XferError) :
    (reportOf (.busres { bits := packBus 0 x, xferErr := e })).outcome = .transport e := by
  have hfailed : (packBus 0 x).getLsbD 16 = false := by rw [packBus_getLsbD_16]; decide
  rw [reportOf, Report.outcome, busResult_of_failed (b := ⟨packBus 0 x, e⟩) hfailed, readResult]

/-! ### What an EXPECT line asserts -/

section
variable (o : Option (ReadResult XferError))

theorem expectationMet_reading (q : Nat) :
    expectationMet (.reading q) o = true ↔ ∃ r : Mag, o = some (.reading r) ∧ r.toNat = q := by
  rcases o with _ | _ | _ | _ <;> simp [expectationMet]

theorem expectationMet_readingDegC (c : Rat) :
    expectationMet (.readingDegC c) o = true ↔ ∃ r : Mag, o = some (.reading r) ∧ degC r = c := by
  rcases o with _ | _ | _ | _ <;> simp [expectationMet]

theorem expectationMet_fault : expectationMet .fault o = true ↔ o = some .sensorFault := by
  rcases o with _ | _ | _ | _ <;> simp [expectationMet]

theorem expectationMet_transport (e : XferError) :
    expectationMet (.transport e) o = true ↔ o = some (.transport e) := by
  rcases o with _ | _ | _ | e' <;> simp [expectationMet, eq_comm (a := e)]

end

theorem degC_eq_div_four (q : Mag) : degC q = (q.toNat : Rat) / 4 :=
  mul_one_div _ _

/-! ### A word placed from outside -/

theorem decodeTableWord_eq_some {nbits w : Nat} {i : Instr} (h : decodeTableWord nbits w = some i) :
    ∃ y, inputOfNumber nbits w = .ok y ∧ decodeInput y = i := by
  unfold decodeTableWord decodeNumber at h
  cases hw : inputOfNumber nbits w with
  | ok y => rw [hw] at h; exact ⟨y, rfl, Option.some.inj h⟩
  | error r => rw [hw] at h; cases h

theorem withFetchWord_of_ok {nbits w : Nat} {y : InputWord XferError} (h : inputOfNumber nbits w = .ok y)
    (s : State) : s.withFetchWord nbits w = ⟨s.present (.apply y :: s.pending)⟩ := by
  unfold State.withFetchWord State.placeWord; rw [h]

end Sys2Proof.Machine
end

section
/-! The statements of encoding (30_encoding.md): the two formats, the wire form of a result, and the stimulus lines. -/

namespace Sys2Proof.Machine

/-- Settles O27: by the instruction, each field of the assembled word is the one that was put there. -/
theorem decodeOfEncode : Obligations.DecodeOfEncode :=
  decodeInput_encode

/-- Settles O28: a word is its fields, and the decoder keeps every field of its word. -/
theorem encodeOfDecode : Obligations.EncodeOfDecode :=
  encode_decodeInput

/-- Settles O3: both operations have the frame of a word driven on `raw`; they differ in what `decode` gives for their
word. -/
theorem decodeFamilyCompletesAndFrame : Obligations.DecodeFamilyCompletesAndFrame := by
  intro sgn m d t s
  have hreading : decode (packW16 sgn m 0 d t) = .reading m := by rw [decode_packW16, if_neg (by decide)]
  have hfault : decode (packW16 sgn m 1 d t) = .sensorFault := by rw [decode_packW16, if_pos rfl]
  constructor
  · have h := exec_of_encode_w16 (i := .decodeReading sgn m d t) rfl s
    rwa [hreading] at h
  · have h := exec_of_encode_w16 (i := .decodeFault sgn m d t) rfl s
    rwa [hfault] at h

/-- Settles O6: the outputs and the result are functions of `decode` of the word, which reads none of the three bits. -/
theorem ignoredBitsReachNoOutput : Obligations.IgnoredBitsReachNoOutput := by
  intro raw i s hi
  refine ⟨_, _, exec_decodeInput (.w16 raw) s, exec_decodeInput (.w16 (raw ^^^ (1#16 <<< i))) s, ?_, ?_⟩
  · rw [blockOut_eq_wires_decode, blockOut_eq_wires_decode, rawNow_evaluate_w16, rawNow_evaluate_w16,
      decode_toggle_ignored raw hi]
  · rw [evaluate_w16, evaluate_w16, lastOutcome_report, lastOutcome_report, Report.outcome, Report.outcome,
      decode_toggle_ignored raw hi]

/-- Settles O11: shift and mask select the bits one by one, and bit 15 is above the magnitude's highest. -/
theorem fieldExtraction : Obligations.FieldExtraction := by
  intro raw
  refine ⟨magnitude_eq_extractLsb' raw, fun i hi => ?_, ?_, faultBit_eq_extractLsb' raw⟩
  · rw [magnitude_getLsbD, decide_eq_true hi, Bool.true_and]
  · exact magnitude_toggle raw (i := 15) (.inr le_rfl)

/-- Settles O26: each row is selected by one value of the fault bit or of `xfer_ok`, and so is each operation. -/
theorem operationMapsPartition : Obligations.OperationMapsPartition := by
  refine ⟨⟨rfl, rfl, rfl, rfl⟩, fun raw => ?_, fun b => ?_⟩
  · rw [rowDecodeReading_selects, rowDecodeFault_selects]
    exact ⟨faultBit_eq_zero raw, faultBit_eq_one raw,
      decodeInput_eq_decodeReading_iff raw, decodeInput_eq_decodeFault_iff raw⟩
  · rw [rowReadXferErr_selects, rowReadOk_selects]
    exact ⟨xferOk_eq_zero b.bits, xferOk_eq_one b.bits,
      decodeInput_eq_readXferErr_iff b, decodeInput_eq_readOk_iff b⟩

/-- Settles O30: the numbers of a line that fit are the numbers of its word's fields. -/
theorem linesHaveTheirInputWords : Obligations.LinesHaveTheirInputWords := by
  intro x side e
  refine ⟨fun w hw => ?_, fun b0 b1 h0 h1 => ?_, ?_, lineInput_expect x side,
    fun _ => lineInput_decode_of_wide x side, fun _ _ => lineInput_readOk_of_wide x side⟩
  · exact ⟨_, lineInput_decode x side hw, (BitVec.toNat_ofNat w 16).trans (Nat.mod_eq_of_lt hw)⟩
  · refine ⟨_, lineInput_readOk x side h0 h1, ?_⟩
    rw [packBus_toNat, assemble_toNat, BitVec.toNat_ofNat, BitVec.toNat_ofNat, Nat.mod_eq_of_lt h0,
      Nat.mod_eq_of_lt h1, Nat.add_assoc]
    rfl
  · refine ⟨_, lineInput_readErr x side e, ?_, rfl⟩
    rw [packBus_toNat]
    simp

/-- Settles O47: a line passes without a change of the state when its assertion is met, which compares the last
outcome. -/
theorem expectLinesAssertTheLastResult : Obligations.ExpectLinesAssertTheLastResult := by
  intro x side s t
  refine ⟨fun q => ?_, fun c => ?_, ?_, fun e => ?_⟩
  · rw [runLine_expect, expectationMet_reading]
  · simp only [runLine_expect, expectationMet_readingDegC, degC_eq_div_four]
  · rw [runLine_expect, expectationMet_fault]
  · rw [runLine_expect, expectationMet_transport]

/-- Settles O48: each line is the one evaluation of its input word, and adds the report of that word. -/
theorem linesRunAsOneEvaluation : Obligations.LinesRunAsOneEvaluation := by
  intro x side s
  refine ⟨fun w hw => ?_, fun b0 b1 h0 h1 => ?_, fun e => ?_, fun w hw => ?_, fun b0 b1 h => ?_⟩
  · obtain ⟨t, hrun, hreports, hpending⟩ := runLine_reports (s := s) (lineInput_decode x side hw)
    exact ⟨t, _, hrun, hreports, hpending, rfl⟩
  · obtain ⟨t, hrun, hreports, hpending⟩ := runLine_reports (s := s) (lineInput_readOk x side h0 h1)
    refine ⟨t, _, hrun, hreports, hpending, ?_⟩
    rw [reportOf_completed_outcome, assemble_ofNat b0 h1]
  · obtain ⟨t, hrun, hreports, hpending⟩ := runLine_reports (s := s) (lineInput_readErr x side e)
    exact ⟨t, _, hrun, hreports, hpending, reportOf_failed_outcome x e⟩
  · exact runLine_of_no_lineInput nofun (lineInput_decode_of_wide x side hw)
  · exact runLine_of_no_lineInput nofun (lineInput_readOk_of_wide x side h)

/-- Settles O12: the wire form by each result, and the tag read back. -/
theorem outputEncoding : Obligations.OutputEncoding :=
  ⟨fun _ => rfl, rfl, result_wires⟩

/-- Settles O29: each word that is written out is the encoding of its instruction, and the two numbers are out of
range. -/
theorem writtenWordsDecode : Obligations.WrittenWordsDecode :=
  ⟨decodeInput_encode (.decodeReading 0 3 0 0), decodeInput_encode (.decodeReading 1 0xFFF 1 1),
    decodeInput_encode (.decodeFault 0 0 0 0), decodeInput_encode (.decodeFault 0 3 1 0),
    fun e => decodeInput_encode (.readOk 0x18 0x00 e), fun e => decodeInput_encode (.readXferErr 0x0018 e), rfl, rfl⟩

/-- Settles O32: a number that decodes is an input word, placed first, and the step takes it from there. -/
theorem placedWordRunsNext : Obligations.PlacedWordRunsNext := by
  intro s nbits w i h
  obtain ⟨y, hword, rfl⟩ := decodeTableWord_eq_some h
  rw [withFetchWord_of_ok hword, step_apply (x := y) (rest := s.pending) rfl]
  rfl

end Sys2Proof.Machine
end

section
/-! SUPPORT. `decode` by the fields of its word, the value of a reading, and an input that is evaluated again
(41_decode.md R47 to R58). -/

namespace Sys2Proof.Machine

/-! ### Both results of `decode`, from the word's fields (41_decode.md R47, R57) -/

theorem decode_eq_sensorFault_iff (raw : RawWord) : decode raw = .sensorFault ↔ raw.getLsbD 2 = true := by
  cases h : raw.getLsbD 2 with
  | false => simp [decode_of_clear h]
  | true => simp [decode_of_set h]

theorem decode_eq_reading_iff (raw : RawWord) (q : Mag) :
    decode raw = .reading q ↔ faultBit raw = 0 ∧ magnitude raw = q := by
  rcases BitVec.eq_zero_or_eq_one (faultBit raw) with h | h <;> simp [decode, h]

theorem decode_packW16_clear (s : Bit) (q : Mag) (d t : Bit) : decode (packW16 s q 0 d t) = .reading q := by
  rw [decode_packW16, if_neg (by decide)]

theorem decode_packW16_set (s : Bit) (m : Mag) (d t : Bit) : decode (packW16 s m 1 d t) = .sensorFault := by
  rw [decode_packW16, if_pos rfl]

/-- The high and the low byte of a word assemble to it (20_memory.md R25). -/
theorem assemble_bytes (raw : RawWord) : assemble (raw.extractLsb' 8 8) (raw.extractLsb' 0 8) = raw :=
  (BitVec.extractLsb'_append_extractLsb'_eq_extractLsb' (by rfl)).trans BitVec.extractLsb'_eq_self

/-! ### The words of one reading (41_decode.md R52) -/

/-- The values of the three fields that no rule reads, as `(s, d, t)`, in the order of `preimages`. -/
def ignoredFields : List (Bit × Bit × Bit) := [0, 1] ×ˢ [0, 1] ×ˢ [0, 1]

theorem mem_ignoredFields (x : Bit × Bit × Bit) : x ∈ ignoredFields := by
  revert x; decide

/-- The word of the reading `q` with the given ignored fields. -/
def readingWord (q : Mag) (x : Bit × Bit × Bit) : RawWord := packW16 x.1 q 0 x.2.1 x.2.2

theorem preimages_eq_map (q : Mag) : preimages q = ignoredFields.map (readingWord q) := rfl

/-- The ignored fields can be read back from the word, so no two choices of them give the same one. -/
theorem readingWord_injective (q : Mag) : Function.Injective (readingWord q) := by
  rintro ⟨s, d, t⟩ ⟨s', d', t'⟩ h
  have hs := congrArg dummySign h
  have hd := congrArg deviceId h
  have ht := congrArg triState h
  simp only [readingWord, dummySign_packW16, deviceId_packW16, triState_packW16] at hs hd ht
  rw [hs, hd, ht]

theorem preimages_nodup (q : Mag) : (preimages q).Nodup := by
  rw [preimages_eq_map]
  exact List.Nodup.map (readingWord_injective q) (by decide)

theorem decode_eq_reading_iff_mem_preimages (raw : RawWord) (q : Mag) :
    decode raw = .reading q ↔ raw ∈ preimages q := by
  rw [preimages_eq_map, List.mem_map]
  constructor
  · intro h
    obtain ⟨hfault, hmag⟩ := (decode_eq_reading_iff raw q).1 h
    refine ⟨(dummySign raw, deviceId raw, triState raw), mem_ignoredFields _, ?_⟩
    rw [readingWord, ← hmag, ← hfault, packW16_fields]
  · rintro ⟨⟨s, d, t⟩, -, rfl⟩
    exact decode_packW16_clear s q d t

/-! ### The three descriptions of the outputs (41_decode.md R50) -/

/-- An AND with twelve copies of a bit is a choice by that bit. -/
theorem blockGates_eq_blockWires (raw : RawWord) : blockGates raw = blockWires raw := by
  rcases BitVec.eq_zero_or_eq_one (faultBit raw) with (h : faultBit raw = 0) | (h : faultBit raw = 1)
  · have hones : BitVec.replicate 12 (~~~(0 : Bit)) = BitVec.allOnes 12 := by decide
    rw [blockGates, blockWires, h, hones, BitVec.and_allOnes, if_neg (by decide)]
  · have hzero : BitVec.replicate 12 (~~~(1 : Bit)) = 0#12 := by decide
    rw [blockGates, blockWires, h, hzero, if_pos rfl, BitVec.and_zero]
    rfl

/-! ### The value of a reading (41_decode.md R53, R54) -/

theorem integerDegrees_eq_div (q : Mag) : integerDegrees q = q.toNat / 4 := by
  rw [integerDegrees, BitVec.toNat_ushiftRight, Nat.shiftRight_eq_div_pow]

theorem and_three_toNat (q : Mag) : (q &&& 3).toNat = q.toNat % 4 := by
  rw [BitVec.toNat_and]
  exact Nat.and_two_pow_sub_one_eq_mod q.toNat 2

/-- The two parts are the quotient and the remainder of the division of the code by 4. -/
theorem degC_eq_integer_add_fraction (q : Mag) : degC q = (integerDegrees q : Rat) + fractionDegrees q := by
  have hparts : (q.toNat : Rat) = 4 * ((q.toNat / 4 : Nat) : Rat) + ((q.toNat % 4 : Nat) : Rat) := by
    exact_mod_cast (Nat.div_add_mod q.toNat 4).symm
  rw [degC_eq_div_four, integerDegrees_eq_div, fractionDegrees, and_three_toNat, hparts]
  ring

theorem fractionDegrees_cases (q : Mag) :
    fractionDegrees q = 0 ∨ fractionDegrees q = 1 / 4 ∨ fractionDegrees q = 1 / 2 ∨ fractionDegrees q = 3 / 4 := by
  have hlt : q.toNat % 4 < 4 := Nat.mod_lt _ (by decide)
  rw [fractionDegrees, and_three_toNat]
  generalize q.toNat % 4 = r at hlt ⊢
  interval_cases r <;> norm_num

theorem degC_injective : Function.Injective degC := by
  intro q q' h
  rw [degC_eq_div_four, degC_eq_div_four, div_left_inj' (by norm_num), Nat.cast_inj] at h
  exact BitVec.eq_of_toNat_eq h

theorem degC_ofNat {k : Nat} (h : k ≤ 4095) : degC (BitVec.ofNat 12 k) = (k : Rat) / 4 := by
  rw [degC_eq_div_four, BitVec.toNat_ofNat, Nat.mod_eq_of_lt (by omega)]

theorem degC_range (q : Mag) : 0 ≤ degC q ∧ degC q ≤ 1023.75 := by
  have hcode : (q.toNat : Rat) ≤ 4095 := by exact_mod_cast Nat.le_of_lt_succ q.isLt
  rw [degC_eq_div_four]
  exact ⟨by positivity, by linarith⟩

/-! ### An input that is evaluated again (41_decode.md R56) -/

section
variable {ε : Type}

theorem evaluate_draws (x : InputWord ε) (s : StateOf ε) : (evaluate x s).draws = s.draws := by
  cases x with
  | w16 raw => rfl
  | busres b =>
    cases h : b.bits.getLsbD 16 with
    | false => rw [evaluate_failed h]; rfl
    | true => rw [evaluate_completed h]; rfl

/-- Whether an input drives `raw`, and with which word, does not depend on the state. -/
theorem evaluate_raw_cases (x : InputWord ε) :
    (∀ s : StateOf ε, (evaluate x s).raw = s.raw) ∨
      ∃ raw, ∀ s : StateOf ε, (evaluate x s).raw = RawPort.drive raw := by
  cases x with
  | w16 raw => exact .inr ⟨raw, fun _ => rfl⟩
  | busres b =>
    cases h : b.bits.getLsbD 16 with
    | false => exact .inl fun s => by rw [evaluate_failed h]; rfl
    | true => exact .inr ⟨busBytes b.bits, fun s => by rw [evaluate_completed h]; rfl⟩

/-- An evaluation on ports that already show its input leaves them so. -/
theorem evaluate_ports_again {x : InputWord ε} {s t : StateOf ε} (hraw : t.raw = (evaluate x s).raw)
    (hbus : t.bus = (evaluate x s).bus) :
    (evaluate x t).raw = (evaluate x s).raw ∧ (evaluate x t).bus = (evaluate x s).bus := by
  constructor
  · obtain hkeeps | ⟨raw, hdrives⟩ := evaluate_raw_cases x
    · rw [hkeeps t, hraw]
    · rw [hdrives t, hdrives s]
  · obtain ⟨-, hs, -⟩ := evaluate_frame x s
    obtain ⟨-, ht, -⟩ := evaluate_frame x t
    rw [ht, hbus, hs, ← Option.or_assoc, Option.or_self]

theorem lastOutcome_evaluate (x : InputWord ε) (s : StateOf ε) :
    (evaluate x s).lastOutcome = some (reportOf x).outcome := by
  simp [StateOf.lastOutcome, evaluate_reports]

/-- With every wire of `raw` driven the block's outputs are those of the port's value, at every moment. -/
theorem blockOut_of_all_driven {s : StateOf ε} (h : s.raw.driven = BitVec.allOnes 16) :
    s.blockOut = blockWires s.raw.value := by
  rw [StateOf.blockOut, StateOf.rawNow, RawPort.seen, if_pos h]

/-- The free value reaches `err_out` only while `xerr_out` is 0 (42_read_wrapper.md R66). -/
theorem wrapperWires_agree (idle idle' : ε) (b : BusWord ε) :
    (wrapperWires idle b).Agree (wrapperWires idle' b) := by
  cases h : b.bits.getLsbD 16 with
  | false =>
    rw [wrapperWires_of_failed idle h, wrapperWires_of_failed idle' h]
    exact ⟨rfl, rfl, rfl, fun _ => rfl⟩
  | true =>
    rw [wrapperWires_of_completed idle h, wrapperWires_of_completed idle' h]
    exact ⟨rfl, rfl, rfl, fun hx => absurd hx (by decide : ¬(0 : Bit) = 1)⟩

/-- What is shown is a function of the ports and the last outcome, wherever the spec fixes it. -/
theorem showsTheSame_of_same_ports [Inhabited ε] {s t : StateOf ε} (hraw : s.raw = t.raw) (hbus : s.bus = t.bus)
    (hlast : s.lastOutcome = t.lastOutcome) : s.ShowsTheSame t where
  raw := hraw
  bus := hbus
  lastOutcome := hlast
  blockOut h := by rw [blockOut_of_all_driven h, blockOut_of_all_driven (hraw ▸ h), hraw]
  wrapperOut := by
    rw [StateOf.wrapperOut, StateOf.wrapperOut, hbus]
    cases t.bus with
    | none => exact .none
    | some b => exact .some (wrapperWires_agree _ _ b)

theorem evaluate_again_shows_the_same [Inhabited ε] {x : InputWord ε} {s t : StateOf ε}
    (hraw : t.raw = (evaluate x s).raw) (hbus : t.bus = (evaluate x s).bus) :
    (evaluate x s).ShowsTheSame (evaluate x t) := by
  obtain ⟨hraw', hbus'⟩ := evaluate_ports_again hraw hbus
  refine showsTheSame_of_same_ports hraw'.symm hbus'.symm ?_
  rw [lastOutcome_evaluate, lastOutcome_evaluate]

end

/-- A step that is given an input word is the evaluation of that word. -/
theorem step_evaluate {s : State} {x : InputWord XferError} {rest : List (Stimulus XferError)}
    (h : s.pending = .apply x :: rest) : step s = .next ⟨evaluate x (s.tick.present rest)⟩ := by
  rw [step_apply h, exec_decodeInput]

end Sys2Proof.Machine
end

section
/-! The statements of decode (41_decode.md): the two operations, the outputs, the fault bit, the temperatures. -/

namespace Sys2Proof.Machine

/-- Settles O1: bit 2 clear selects the first row, and the operation has the frame of its word driven on `raw`. -/
theorem decodeReadingOutcome : Obligations.DecodeReadingOutcome := by
  intro raw s hclear
  have hinstr := decodeInput_of_clear ((faultBit_eq_zero raw).2 hclear)
  have hresult := decode_of_clear hclear
  obtain ⟨u, hexec, hraw, hout, hreports, -⟩ := exec_of_encode_w16 (encode_decodeInput (.w16 raw)) s
  rw [magnitude_eq_extractLsb'] at hinstr hresult
  rw [hinstr] at hexec
  rw [hresult] at hout hreports
  exact ⟨_, _, _, hinstr, u, hexec, rawNow_of_driven hraw, congrArg BlockOut.faultOut hout,
    congrArg BlockOut.tempQ2Out hout, hreports⟩

/-- Settles O2: bit 2 set selects the second row, and `decode` of the word that the operation drives is the fault. -/
theorem decodeFaultOutcome : Obligations.DecodeFaultOutcome := by
  intro raw s hset
  have hinstr := decodeInput_of_set ((faultBit_eq_one raw).2 hset)
  obtain ⟨u, hexec, hraw, hout, hreports, -⟩ := exec_of_encode_w16 (encode_decodeInput (.w16 raw)) s
  rw [hinstr] at hexec
  rw [decode_of_set hset] at hout hreports
  exact ⟨_, _, _, _, hinstr, u, hexec, rawNow_of_driven hraw, congrArg BlockOut.faultOut hout,
    congrArg BlockOut.tempQ2Out hout, hreports⟩

/-- Settles O5: `decode` reads none of the three bits, and the words of a reading are the packings of its code with the
eight values of those bits. -/
theorem bitPositionIsolation : Obligations.BitPositionIsolation :=
  ⟨fun raw _ hi => decode_toggle_ignored raw hi,
    fun q => ⟨rfl, preimages_nodup q, fun raw => decode_eq_reading_iff_mem_preimages raw q⟩⟩

/-- Settles O7: the multiplexer's choice is the gates' AND and the wire form of the decoded word. -/
theorem multiplexerIsDecode : Obligations.MultiplexerIsDecode := by
  intro raw s hraw
  rw [blockOut_of_driven hraw, blockGates_eq_blockWires, ← blockWires_eq_wires_decode,
    ← faultBit_eq_extractLsb', ← magnitude_eq_extractLsb']
  exact ⟨rfl, rfl, rfl⟩

/-- Settles O8: the integer part and the fraction are the quotient and the remainder of the code by 4. -/
theorem fixedPointScaling : Obligations.FixedPointScaling := by
  intro q
  refine ⟨rfl, degC_eq_div_four q, ?_, ?_, ?_, fractionDegrees_cases q, degC_eq_integer_add_fraction q⟩
  · rw [integerDegrees_eq_div, BitVec.extractLsb'_toNat, Nat.shiftRight_eq_div_pow]
    omega
  · rw [integerDegrees_eq_div]
    omega
  · rw [fractionDegrees, and_three_toNat, BitVec.extractLsb'_toNat]
    rfl

/-- Settles O9: a code is a number up to 4095, and each of these is the code of a word. -/
theorem readingRange : Obligations.ReadingRange := by
  refine ⟨Set.ext fun x => ⟨?_, ?_⟩, fun _ q _ => degC_range q, fun _ _ h => degC_injective h⟩
  · rintro ⟨raw, q, -, rfl⟩
    exact ⟨q.toNat, Nat.le_of_lt_succ q.isLt, degC_eq_div_four q⟩
  · rintro ⟨k, hk, rfl⟩
    exact ⟨packW16 0 (BitVec.ofNat 12 k) 0 0 0, BitVec.ofNat 12 k, decode_packW16_clear 0 _ 0 0, degC_ofNat hk⟩

/-- Settles O10: a fault is bit 2, and a word can be packed of any magnitude and either fault bit. -/
theorem faultBitAloneDecides : Obligations.FaultBitAloneDecides := by
  refine ⟨fun raw raw' h => ?_, fun m => ?_⟩
  · rw [decode_eq_sensorFault_iff, decode_eq_sensorFault_iff, h]
  · simp only [← magnitude_eq_extractLsb']
    exact ⟨⟨packW16 0 m 0 0 0, magnitude_packW16 0 m 0 0 0, decode_packW16_clear 0 m 0 0⟩,
      ⟨packW16 0 m 1 0 0, magnitude_packW16 0 m 1 0 0, decode_packW16_set 0 m 0 0⟩⟩

/-- Settles O36: what is shown depends on the ports and the last outcome, and the second evaluation finds the ports as
the first left them, also when the counter was advanced in between. -/
theorem evaluationIsIdempotent : Obligations.EvaluationIsIdempotent := by
  refine ⟨fun i s => ?_, fun s x rest hpending => ?_⟩
  · exact ⟨_, _, exec_eq_evaluate_encode i s, exec_eq_evaluate_encode i _, evaluate_again_shows_the_same rfl rfl⟩
  · have hnext : (evaluate x (s.tick.present (.apply x :: rest))).pending = .apply x :: rest :=
      (evaluate_frame x _).1
    refine ⟨_, _, step_evaluate hpending, step_evaluate hnext, ?_, evaluate_again_shows_the_same rfl rfl⟩
    rw [evaluate_draws, evaluate_draws, present_draws, present_draws, tick_draws, tick_draws, evaluate_draws]
    simp

/-- Settles O4: the bytes of a word assemble to it, and READ passes on what it decodes to. -/
theorem faultPrecedence : Obligations.FaultPrecedence := by
  intro raw hset
  have hfault := decode_of_set hset
  refine ⟨hfault, ?_⟩
  rw [readResult, assemble_bytes, hfault, Result.toRead]

end Sys2Proof.Machine
end

section
/-! SUPPORT. READ by the bit `xfer_ok`: what its operations leave, its result as the wires show it, and the outcome of a
step whose next state is renamed (42_read_wrapper.md R60 to R66). -/

namespace Sys2Proof.Machine

/-! ### The word of a completed transfer (20_memory.md R25, 30_encoding.md R44) -/

/-- `xfer_ok` above the two bytes, whichever way the three are put together. -/
theorem packBus_bytes (ok : Bit) (rx0 rx1 : Byte) : packBus ok (rx0 ++ rx1) = ok ++ rx0 ++ rx1 :=
  (BitVec.append_assoc (x₁ := ok) (x₂ := rx0) (x₃ := rx1)).symm

/-- Bit 2 of the assembled word is bit 2 of the second byte, and it alone decides. -/
theorem decode_assemble (rx0 rx1 : Byte) :
    decode (assemble rx0 rx1) =
      if rx1.getLsbD 2 then .sensorFault else .reading ((assemble rx0 rx1).extractLsb' 3 12) := by
  have hbit : (assemble rx0 rx1).getLsbD 2 = rx1.getLsbD 2 := by
    rw [assemble, BitVec.getLsbD_append, if_pos (by decide)]
  cases h : rx1.getLsbD 2 with
  | false => rw [decode_of_clear (hbit.trans h), magnitude_eq_extractLsb', if_neg (by decide)]
  | true => rw [decode_of_set (hbit.trans h), if_pos rfl]

section
variable {ε : Type}

/-! ### READ's result, and its wire form (42_read_wrapper.md R66) -/

theorem toRead_ne_transport (r : Result) (e : ε) : r.toRead ≠ .transport e := by
  cases r <;> exact nofun

theorem readResult_mapErr {α β : Type} (f : α → β) (r : BusResult α) :
    readResult (r.mapErr f) = (readResult r).mapErr f := by
  cases r with
  | ok rx0 rx1 => exact (mapErr_toRead f _).symm
  | err e => rfl

/-- The wire form of a result that READ got from the block: the block's own pair beside an idle `err_out`. -/
theorem toRead_wires (idle : ε) (r : Result) :
    r.toRead.wires idle =
      { xerrOut := 0, faultOut := r.wires.faultOut, tempQ2Out := r.wires.tempQ2Out, errOut := idle } := by
  cases r <;> rfl

theorem wrapperWires_eq_wires_readResult (idle : ε) (b : BusWord ε) :
    wrapperWires idle b = (readResult (busResult b)).wires idle := by
  cases h : b.bits.getLsbD 16 with
  | false => rw [wrapperWires_of_failed idle h, busResult_of_failed h, readResult, ReadResult.wires]
  | true =>
    rw [wrapperWires_of_completed idle h, busResult_of_completed h, readResult, assemble, busRx0_append_busRx1,
      toRead_wires, blockWires_eq_wires_decode]

/-- No result has the wire form of both errors. -/
theorem readResult_wires_not_both_errors (idle : ε) (r : ReadResult ε) :
    ¬((r.wires idle).xerrOut = 1 ∧ (r.wires idle).faultOut = 1) := by
  rintro ⟨hxerr, hfault⟩
  have hne : ¬(0 : Bit) = 1 := by decide
  cases r with
  | transport e => exact hne hfault
  | _ => exact hne hxerr

/-- Reports of the block alone do not hide the transfer before them. -/
theorem lastTransfer_of_last_wrapper {s : StateOf ε} {before after : List (Report ε)} {b : BusWord ε}
    {r : ReadResult ε} (hreports : s.reports = before ++ .wrapper b r :: after)
    (hafter : ∀ x ∈ after, x.transfer? = none) : s.lastTransfer = some b := by
  have hnone : after.filterMap Report.transfer? = [] := List.filterMap_eq_nil_iff.2 hafter
  have hcons : (Report.wrapper b r :: after).filterMap Report.transfer? = [b] := congrArg (b :: ·) hnone
  rw [StateOf.lastTransfer, hreports, List.filterMap_append, hcons, List.getLast?_concat]

end

/-! ### What a READ operation leaves, by `xfer_ok` -/

section
variable {i : Instr} {b : BusWord XferError}

/-- The frame of a failed READ, once: the transfer is shown and its error reported, and the block is left alone. -/
theorem exec_of_encode_failed (hi : encode i = .busres b) (hfailed : b.bits.getLsbD 16 = false) (s : State) :
    ∃ u, exec i s = .next u ∧ u.bus = some b ∧
      u.reports = s.reports ++ [.wrapper b (.transport b.xferErr)] ∧
      u.raw = s.raw ∧ u.blockOut = s.blockOut ∧ u.pending = s.pending ∧ u.draws = s.draws := by
  have hexec := exec_eq_evaluate_encode i s
  rw [hi, evaluate_failed hfailed] at hexec
  exact ⟨_, hexec, rfl, rfl, rfl, rfl, rfl, rfl⟩

/-- The frame of a completed READ, once: the transfer is shown, and its two bytes are driven and decoded. -/
theorem exec_of_encode_completed (hi : encode i = .busres b) (hcompleted : b.bits.getLsbD 16 = true) (s : State) :
    ∃ u, exec i s = .next u ∧ u.bus = some b ∧
      u.reports = s.reports ++ [.wrapper b (decode (busBytes b.bits)).toRead] ∧
      u.raw = RawPort.drive (busBytes b.bits) ∧ u.pending = s.pending ∧ u.draws = s.draws := by
  have hexec := exec_eq_evaluate_encode i s
  rw [hi, evaluate_completed hcompleted] at hexec
  exact ⟨_, hexec, rfl, rfl, rfl, rfl, rfl⟩

end

/-! ### A run of inputs, and a renamed next state -/

theorem run_of_inputs (xs : List (InputWord XferError)) {rest : List (Stimulus XferError)} {s : State}
    (h : s.pending = xs.map .apply ++ rest) :
    ∃ t : State, (Host.Core.run Sys2Proof.core xs.length s : Host.Outcome State Fault Refusal) = .next t ∧
      t.pending = rest ∧ t.reports = s.reports ++ xs.map reportOf := by
  induction xs generalizing s with
  | nil => exact ⟨s, rfl, h, (List.append_nil _).symm⟩
  | cons x xs ih =>
    have hpending : (evaluate x (s.tick.present (xs.map .apply ++ rest))).pending = xs.map .apply ++ rest :=
      (evaluate_frame x _).1
    obtain ⟨t, hrun, hrest, hreports⟩ := ih (s := ⟨evaluate x (s.tick.present (xs.map .apply ++ rest))⟩) hpending
    refine ⟨t, (run_next xs.length (step_evaluate h)).trans hrun, hrest, ?_⟩
    rw [hreports, evaluate_reports, List.append_assoc]
    rfl

theorem mapOutcome_mapOutcome {ρ σ τ : Type} (g : σ → τ) (f : ρ → σ) (o : Host.Outcome ρ Fault Refusal) :
    mapOutcome g (mapOutcome f o) = mapOutcome (g ∘ f) o := by
  cases o <;> rfl

end Sys2Proof.Machine
end

section
/-! The statements of the READ wrapper (42_read_wrapper.md): its two operations, its wires, and the step. -/

namespace Sys2Proof.Machine

/-- Settles O17: bit 16 clear selects the row of the failed transfer, whose report and wires carry the side value. -/
theorem readXferErrOutcome : Obligations.ReadXferErrOutcome := by
  intro b s hfailed
  have hinstr := decodeInput_of_failed ((xferOk_eq_zero b.bits).2 hfailed)
  obtain ⟨u, hexec, hbus, hreports, -⟩ := exec_of_encode_failed (encode_decodeInput (.busres b)) hfailed s
  rw [hinstr] at hexec
  refine ⟨_, hinstr, u, hexec, hreports, ?_⟩
  rw [wrapperOut_of_bus hbus, wrapperWires_of_failed _ hfailed]

/-- Settles O18: the bytes of the bus word are assembled and driven, and both sets of wires are those of that word. -/
theorem readOkOutcome : Obligations.ReadOkOutcome := by
  intro rx0 rx1 side s
  have hcompleted : (packBus 1 (rx0 ++ rx1)).getLsbD 16 = true := by rw [packBus_getLsbD_16]; decide
  obtain ⟨u, hexec, hbus, hreports, hraw, -⟩ :=
    exec_of_encode_completed (i := .readOk rx0 rx1 side) rfl hcompleted s
  have hwires := (wrapperOut_of_bus hbus).trans (congrArg some (wrapperWires_of_completed _ hcompleted))
  simp only [busBytes_packBus] at hreports hraw hwires
  have hnow : u.rawNow = assemble rx0 rx1 := rawNow_of_driven hraw
  rw [← packBus_bytes]
  refine ⟨decodeInput_encode (.readOk rx0 rx1 side), u, _, hexec, ?_, ?_, ?_, hwires, rfl, ?_, ?_⟩
  · rw [hnow, assemble_toNat]
  · rw [hreports, hnow, ← assemble, decode_assemble]
    cases rx1.getLsbD 2 <;> rfl
  · rw [blockOut_eq_wires_decode, hnow, decode_assemble]
    cases rx1.getLsbD 2 <;> rfl
  · rw [blockOut_of_driven hraw]
  · rw [blockOut_of_driven hraw]

/-- Settles O19: each operation has the frame of its transfer, failed or completed. -/
theorem readFamilyCompletesAndFrame : Obligations.ReadFamilyCompletesAndFrame := by
  refine ⟨fun x e s => ?_, fun rx0 rx1 side s => ?_⟩
  · exact exec_of_encode_failed (i := .readXferErr x e) rfl (by rw [packBus_getLsbD_16]; decide) s
  · obtain ⟨u, hexec, hbus, hreports, hraw, hpending, hdraws⟩ :=
      exec_of_encode_completed (i := .readOk rx0 rx1 side) rfl (by rw [packBus_getLsbD_16]; decide) s
    rw [busBytes_packBus] at hraw
    rw [packBus_bytes] at hbus hreports
    exact ⟨u, _, hexec, hbus, hreports, hraw, hpending, hdraws⟩

/-- Settles O20: both drive the assembled word, which fixes the outputs, and both report what it decodes to. -/
theorem readOkIsDecodeOfAssembledWord : Obligations.ReadOkIsDecodeOfAssembledWord := by
  intro rx0 rx1 side s
  refine ⟨_, _, exec_readOk rx0 rx1 side s, exec_decodeInput (.w16 (rx0 ++ rx1)) s, rfl, ?_, ?_⟩
  · rw [blockOut_of_driven (raw := assemble rx0 rx1) rfl, blockOut_of_driven (raw := rx0 ++ rx1) rfl, assemble]
  · rw [evaluate_w16, lastOutcome_report, lastOutcome_report, Report.outcome, Report.outcome, assemble]

/-- Settles O22: by `xfer_ok` the wires are the wire form of one result, and no result has both errors. -/
theorem wrapperWireForm : Obligations.WrapperWireForm := by
  refine ⟨wrapperWires_eq_wires_readResult, fun _ _ => rfl, fun _ => rfl, fun _ _ => rfl, fun s o ho => ?_⟩
  obtain ⟨b, -, rfl⟩ := Option.map_eq_some_iff.1 ho
  rw [wrapperWires_eq_wires_readResult]
  exact readResult_wires_not_both_errors _ _

/-- Settles O23: READ passes an error on unread, and what it decodes holds none. -/
theorem readIsTheSameOverEveryErrorType : Obligations.ReadIsTheSameOverEveryErrorType := by
  intro α β f
  refine ⟨fun _ => rfl, fun rx0 rx1 => ⟨toRead_ne_transport _, ?_⟩, readResult_mapErr f⟩
  rw [readResult, decode_assemble, assemble]
  cases rx1.getLsbD 2 <;> rfl

/-- Settles O34: by what is presented, each of the five cases stops in its one way or answers a next state. -/
theorem stepStopsOnlyOnTheEnvironment : Obligations.StepStopsOnlyOnTheEnvironment := by
  intro s
  match h : s.pending with
  | [] => simp [step_nil h]
  | .apply x :: rest => simp [step_evaluate h, benign]
  | .undrive p :: rest => simp [step_undrive h, benign]
  | .transferHangs :: rest =>
    refine ⟨⟨fun _ => ⟨rest, rfl⟩, fun _ => ⟨_, step_transferHangs h⟩⟩, ?_⟩
    simp [step_transferHangs h, benign]
  | .secondCaller :: rest => simp [step_secondCaller h, benign]

/-- Settles O40: the invariant ties the wrapper's input to the last transfer reported, and its result to READ of it. -/
theorem wrapperShowsTheLastRead : Obligations.WrapperShowsTheLastRead := by
  intro s before after b r hinv hreports hafter
  have hbus : s.bus = some b := hinv.busIsLastReport.trans (lastTransfer_of_last_wrapper hreports hafter)
  have hsound : r = readResult (busResult b) := hinv.reportsSound (.wrapper b r) (by simp [hreports])
  rw [wrapperOut_of_bus hbus, wrapperWires_eq_wires_readResult, hsound]

/-- Settles O41, by induction on the inputs from any state: each step takes one and adds its report. -/
theorem eachEvaluationDependsOnItsInputAlone : Obligations.EachEvaluationDependsOnItsInputAlone :=
  fun xs _ _ h => run_of_inputs xs h

/-- Settles O43: the step is the open-type step at named errors, and that one commutes with renaming. -/
theorem stepCommutesWithErrorRenaming : Obligations.StepCommutesWithErrorRenaming := by
  intro f s
  rw [stepIsTheOpenTypeStep, stepIsTheOpenTypeStep, State.mapErr, stepOf_mapErr, mapOutcome_mapOutcome,
    mapOutcome_mapOutcome]
  rfl

/-- Settles O35: the first step of a run faults, and a run stops there. -/
theorem blockedReadHasNoResult : Obligations.BlockedReadHasNoResult :=
  fun _ _ h => ⟨step_transferHangs h, fun n => run_fault n (step_transferHangs h)⟩

end Sys2Proof.Machine
end

section
/-! SUPPORT. The outcome of an input word by the bits that decide it, and the word of a chip's sample
(60_exceptions.md R68, R70, R76, R77). -/

namespace Sys2Proof.Machine

section
variable {ε : Type}

/-! ### The outcome, by the bits of the input word (60_exceptions.md R70) -/

theorem decode_toRead (raw : RawWord) :
    ((decode raw).toRead : ReadResult ε) =
      if raw.getLsbD 2 then .sensorFault else .reading (raw.extractLsb' 3 12) := by
  cases h : raw.getLsbD 2 with
  | false => rw [decode_of_clear h, magnitude_eq_extractLsb', Result.toRead, if_neg (by decide)]
  | true => rw [decode_of_set h, Result.toRead, if_pos rfl]

/-- The fields of the transferred word stand at the same places in the bus word. -/
theorem busBytes_getLsbD (b : BusBits) {i : Nat} (h : i < 16) : (busBytes b).getLsbD i = b.getLsbD i := by
  rw [busBytes, BitVec.getLsbD_extractLsb', decide_eq_true h, Bool.true_and, Nat.zero_add]

theorem busBytes_extractLsb' (b : BusBits) : (busBytes b).extractLsb' 3 12 = b.extractLsb' 3 12 :=
  BitVec.extractLsb'_extractLsb'_of_le (by decide)

theorem reportOf_busres_outcome (b : BusWord ε) :
    (reportOf (.busres b)).outcome =
      if b.bits.getLsbD 16 = false then .transport b.xferErr
      else if b.bits.getLsbD 2 then .sensorFault else .reading (b.bits.extractLsb' 3 12) := by
  rw [reportOf, Report.outcome]
  cases h : b.bits.getLsbD 16 with
  | false => rw [busResult_of_failed h, readResult, if_pos rfl]
  | true =>
    rw [busResult_of_completed h, readResult, assemble, busRx0_append_busRx1, decode_toRead,
      busBytes_getLsbD b.bits (by decide), busBytes_extractLsb', if_neg (by decide : ¬true = false)]

/-! ### The block after a READ line -/

theorem rawNow_evaluate_completed {b : BusWord ε} (h : b.bits.getLsbD 16 = true) (s : StateOf ε) :
    (evaluate (.busres b) s).rawNow = busBytes b.bits :=
  rawNow_of_driven (by rw [evaluate_completed h, report_raw, driveRaw_raw])

theorem blockOut_evaluate_failed {b : BusWord ε} (h : b.bits.getLsbD 16 = false) (s : StateOf ε) :
    (evaluate (.busres b) s).blockOut = s.blockOut := by
  rw [evaluate_failed h]; rfl

end

/-! ### The chip's sample (60_exceptions.md R76) -/

theorem decode_word (c : ChipSample) : decode c.word = if c.isOpen then .sensorFault else .reading c.mag := by
  rw [ChipSample.word]
  cases c.isOpen with
  | false => exact decode_packW16_clear c.sgn c.mag c.devId c.tri
  | true => exact decode_packW16_set c.sgn c.mag c.devId c.tri

/-- The tag alone decides whether the consumer takes a temperature (70_reset_and_hazards.md R86). -/
theorem temperature_wires_reading (q : Mag) : (Result.reading q).wires.temperature = some ((q.toNat : Rat) / 4) :=
  (if_neg (by decide : ¬(0 : Bit) = 1)).trans (congrArg some (degC_eq_div_four q))

theorem temperature_wires_sensorFault : Result.sensorFault.wires.temperature = none := rfl

end Sys2Proof.Machine
end

section
/-! The statements of exceptions (60_exceptions.md): every input completes, with one outcome, from the chip on. -/

namespace Sys2Proof.Machine

/-- Settles O21: an input word adds its one report, whose outcome is decided by bit 16 of a bus word, then by bit 2. -/
theorem outcomesAndTheirPriority : Obligations.OutcomesAndTheirPriority :=
  ⟨fun raw s => ⟨_, _, exec_decodeInput (.w16 raw) s, evaluate_reports _ _, decode_toRead raw⟩,
    fun b s => ⟨_, _, exec_decodeInput (.busres b) s, evaluate_reports _ _, reportOf_busres_outcome b⟩⟩

/-- Settles O44: a completed transfer drives the sample's word, which decodes by whether the thermocouple is open; a
failed one reports its error and drives nothing. -/
theorem chipToConsumer : Obligations.ChipToConsumer := by
  refine ⟨fun c side rest s hpending => ?_, fun e bytes rest s hpending => ?_⟩
  · have hcompleted : (c.transfer side).bits.getLsbD 16 = true := packBus_getLsbD_16 1 c.word
    have hbytes : busBytes (c.transfer side).bits = c.word := busBytes_packBus 1 c.word
    have houtcome : (reportOf (.busres (c.transfer side))).outcome = (decode c.word).toRead :=
      reportOf_completed_outcome side c.word
    refine ⟨_, step_evaluate hpending, ?_, ?_⟩
    · rw [lastOutcome_evaluate, houtcome, decode_word]
      cases c.isOpen <;> rfl
    · rw [blockOut_eq_wires_decode, rawNow_evaluate_completed hcompleted, hbytes, decode_word]
      cases c.isOpen with
      | false => exact temperature_wires_reading c.mag
      | true => exact temperature_wires_sensorFault
  · have hfailed : (failedTransfer e bytes).bits.getLsbD 16 = false := packBus_getLsbD_16 0 bytes
    refine ⟨_, step_evaluate hpending, ?_, blockOut_evaluate_failed hfailed _⟩
    rw [lastOutcome_evaluate]
    exact congrArg some (reportOf_failed_outcome bytes e)

/-- Settles O33: an instruction is the evaluation of its encoding, a step on an input word that of the word, and an
evaluation always has a next state. -/
theorem noInputTraps : Obligations.NoInputTraps :=
  ⟨fun i s => ⟨_, exec_eq_evaluate_encode i s⟩, fun _ _ _ hpending => ⟨_, step_evaluate hpending⟩⟩

end Sys2Proof.Machine
end

section
/-! SUPPORT. What undriven wires show, and the temperature of the output pair by its fault bit
(70_reset_and_hazards.md R82, R86). -/

namespace Sys2Proof.Machine

section
variable {ε : Type}

/-- A port with no wire driven shows the draw itself. -/
theorem seen_of_undriven {p : RawPort} (h : p.driven = 0) (draw : RawWord) : p.seen draw = draw := by
  apply BitVec.eq_of_getLsbD_eq
  intro i hi
  rw [seen_getLsbD p draw i hi, h]
  simp

theorem rawNow_undriveRaw (p : RawPort) (s : StateOf ε) :
    (s.undriveRaw p).rawNow = p.seen (Config.undrivenRaw s.draws) :=
  seen_clean p _

theorem blockOut_of_undriven {s : StateOf ε} (h : s.raw.driven = 0) :
    s.blockOut = (decode (Config.undrivenRaw s.draws)).wires := by
  rw [blockOut_eq_wires_decode, StateOf.rawNow, seen_of_undriven h]

theorem temperature_of_fault {o : BlockOut} (h : o.faultOut = 1) : o.temperature = none :=
  if_pos h

/-- With the fault bit at 0 the pair is the wire form of a reading, from which the consumer takes its code over 4. -/
theorem blockOut_temperature_of_clear {s : StateOf ε} (h : s.rawNow.getLsbD 2 = false) :
    s.blockOut.temperature = some (((s.rawNow.extractLsb' 3 12).toNat : Rat) / 4) := by
  rw [blockOut_eq_wires_decode, decode_of_clear h, temperature_wires_reading, magnitude_eq_extractLsb']

end

end Sys2Proof.Machine
end

section
/-! The statements of reset and hazards (70_reset_and_hazards.md): undriven wires, the consumer's check, power-up. -/

namespace Sys2Proof.Machine

/-- Settles O16: the port mixes value and draw wire by wire, and neither step without a sample touches what the consumer
and the wrapper hold. -/
theorem undrivenInputIsADraw : Obligations.UndrivenInputIsADraw := by
  refine ⟨fun s i hi => seen_getLsbD s.raw _ i hi, fun s => blockOut_eq_wires_decode s.toStateOf, ?nothing, ?undrive⟩
  case nothing =>
    intro s hpending
    exact ⟨_, step_nil hpending, rfl, rfl, rfl, hpending, tick_draws s.toStateOf⟩
  case undrive =>
    intro s p rest hpending
    exact ⟨_, step_undrive hpending, rfl, rfl, rfl, rfl, rfl, rawNow_undriveRaw p (s.tick.present rest)⟩

/-- Settles O15: the consumer branches on `fault_out`, and with it at 0 the word on `raw` decodes to a reading. -/
theorem consumerTakesNoTemperatureFromFault : Obligations.ConsumerTakesNoTemperatureFromFault := by
  refine fun s => ⟨temperature_of_fault, fun hclear => ?_⟩
  exact blockOut_temperature_of_clear ((blockOut_faultOut_eq_zero s.toStateOf).1 hclear)

/-- Settles O37: the fields are those of power-up, and with no wire driven the word on `raw` is the draw. -/
theorem resetHoldsNothing : Obligations.ResetHoldsNothing :=
  ⟨rfl, rfl, rfl, rfl, rfl, blockOut_of_undriven rfl⟩

/-- Settles O38: an undriven port carries no value of its own, and with no report there is none to be unsound and no
last transfer. -/
theorem resetMeetsInvariant : Obligations.ResetMeetsInvariant where
  rawCanonical := rfl
  reportsSound _ hr := absurd hr List.not_mem_nil
  busIsLastReport := rfl

end Sys2Proof.Machine
end
